-- ==== Sys2Proof/Word.lean ====
section
/-! DEFINITION. The machine's units of data: the byte of the program buffer and the 256-bit word of the stack, the
arithmetic and the memory (00_scope.md R7, R9). -/

namespace Sys2Proof

/-- A byte: 8 bits (R9). An opcode is one byte (R7, `OPCODE_W = 8`). -/
abbrev Byte := BitVec 8

/-- A word: an unsigned integer in [0, 2^256) (R7 `WORD_W = 256`, R9, R13). -/
abbrev Word := BitVec 256

end Sys2Proof
end

