-- ==== Sys2Proof/Config.lean ====
section
/-! DEFINITION. The parameters of the core (00_scope.md R7, R8): what an implementation
fixes, and the values the spec leaves open; and the names of the fault kinds (60_exceptions.md R140). -/

namespace Sys2Proof

/-- The fault kinds of R140. `None` of that table is the absence of one: the fault register is an `Option FaultKind`. -/
inductive FaultKind where
  /-- "push would exceed the fixed capacity": raised by Push, so by PUSH1 (R24, R130). -/
  | stackOverflow
  /-- "pop on an empty stack": raised by Pop, and by ADD and MUL with fewer than two words (R25, R124). -/
  | stackUnderflow
  /-- "decoded opcode has no dispatch entry": raised by Exec (R103). -/
  | invalidOpcode
  /-- PUSH1's immediate at or beyond L under the policy `fault` (R132, the spec's own addition). -/
  | truncatedImmediate
  /-- "out-of-range memory offset": raised by MemStore at the memory port only (R55). -/
  | invalidAccess
  /-- "out-of-range value for the memory's cell width": raised by MemStore at the memory port only (R55). -/
  | invalidValue
  deriving DecidableEq, Repr

/-- `STACK_DEPTH` (R7): the greatest length of the operand stack. -/
abbrev stackDepth : Nat := 1024

/-- `TRUNC_IMM_POLICY` (42_push.md R132): what a PUSH1 does whose immediate byte lies at or beyond the end of the program buffer. -/
inductive TruncPolicy where
  /-- The handler raises TruncatedImmediate. The default (D7). -/
  | fault
  /-- The missing byte reads as 0x00. -/
  | zeroPad
  deriving DecidableEq, Repr

/-- The parameters of R8. Every operation that depends on one takes a `Config`, so a statement can be made for all of them (D2). -/
structure Config where
  /-- `OPC_STOP` (30_encoding.md R84). -/
  opcStop : Byte
  /-- `OPC_ADD`. -/
  opcAdd : Byte
  /-- `OPC_MUL`. -/
  opcMul : Byte
  /-- `OPC_PUSH1`. -/
  opcPush1 : Byte
  /-- `PROG_MAX_LEN` (D4): the longest program buffer the core accepts. -/
  progMaxLen : Nat
  /-- `PC_W` (D4): the width of the pc register. -/
  pcW : Nat
  /-- `MEM_ADDR_W` (D11): the width of a memory offset. -/
  memAddrW : Nat
  /-- `MEM_CAP` (D11): the number of storable cells. -/
  memCap : Nat
  /-- `RANGE_MAX_LEN` (D12): the greatest length of a range load. -/
  rangeMaxLen : Nat
  /-- `TRUNC_IMM_POLICY` (D7). -/
  truncPolicy : TruncPolicy
  deriving DecidableEq, Repr

/-! ## Open values

Each is a constant without a body: nothing in Lean can evaluate it, so whatever is proved of the core holds for every value
of it (DESIGN CHOICE, log 4 and log 7). -/

/-- OPEN: one less than `PC_W` (log 4). -/
opaque Config.freePcW : Nat
/-- OPEN: the implementation's bound on the program length, before the limit that `PC_W` sets (log 4). -/
opaque Config.freeProgMaxLen : Nat
/-- OPEN: `MEM_ADDR_W` (log 4). -/
opaque Config.freeMemAddrW : Nat
/-- OPEN: the implementation's memory capacity, before the limit that `MEM_ADDR_W` sets (log 4). -/
opaque Config.freeMemCap : Nat
/-- OPEN: `RANGE_MAX_LEN` (log 4). -/
opaque Config.freeRangeMaxLen : Nat
/-- FREE VALUE: the diagnostic label of an illegal byte (30_encoding.md R91: "not specified"; log 7). -/
opaque Config.freeLabel : Byte → String

end Sys2Proof
end

