-- ==== Sys2Proof/Syntax.lean ====
section
/-! DEFINITION. The instructions: one constructor per row of spec/opcode_table.json (00_scope.md R2, 40_control.md R113). -/

namespace Sys2Proof

/-- The four instructions. Operands other than PUSH1's immediate are implicit on the stack (30_encoding.md R81). -/
inductive Instr where
  /-- STOP, format O (R104). -/
  | stop
  /-- ADD, format O (R121). -/
  | add
  /-- MUL, format O (R122). -/
  | mul
  /-- PUSH1, format P1, with its immediate byte `imm8` (R82, R130). -/
  | push1 (imm : Byte)
  deriving DecidableEq, Repr

end Sys2Proof
end

