-- ==== Sys2Proof/WellFormed.lean ====
section
/-! DEFINITION. Which instructions and which parameters are well formed. -/

namespace Sys2Proof

/-- The operand of an instruction as the assembler writes it (30_encoding.md R90). -/
def Instr.operand : Instr → Option Nat
  | .push1 imm => some imm.toNat
  | .stop | .add | .mul => none

/-- An operand the encoding can hold: none, or an integer 0 to 255 in one byte (R82, R90). -/
def operandFits (operand : Option Nat) : Bool :=
  match operand with
  | none => true
  | some n => n < 2 ^ 8

/-- A well-formed instruction. The immediate is a byte by its type, so every term of `Instr` passes; the check itself
(`operandFits`) is what the assembler applies to a written operand. -/
def Instr.wf (i : Instr) : Bool := operandFits i.operand

/-- "The four values must be distinct" (30_encoding.md R84). -/
abbrev Config.OpcodesDistinct (c : Config) : Prop :=
  [c.opcStop, c.opcAdd, c.opcMul, c.opcPush1].Nodup

/-- `PC_W >= ceil(log2(PROG_MAX_LEN + 2))` (10_state.md R30), written without the logarithm. -/
abbrev Config.PcWide (c : Config) : Prop := c.progMaxLen + 2 ≤ 2 ^ c.pcW

/-- `MEM_CAP <= 2^MEM_ADDR_W` (20_memory.md R53). -/
abbrev Config.CapFits (c : Config) : Prop := c.memCap ≤ 2 ^ c.memAddrW

/-- Parameters that the spec admits. -/
abbrev Config.Valid (c : Config) : Prop := c.OpcodesDistinct ∧ c.PcWide ∧ c.CapFits

end Sys2Proof
end

