-- ==== Sys2Proof/Decode.lean ====
section
/-! DEFINITION. The core's parameters; the decoder, total on any bytes and rejecting by name; then the encoder (30_encoding.md). -/

namespace Sys2Proof

/-- The core's parameters: the default opcode values of R84 (PRESUMED, log 1), the default policy of R132 (DESIGN CHOICE, log 5), and free
values for the OPEN ones. The powers of two and the minima say only what R8 demands: `PROG_MAX_LEN + 2 <= 2^PC_W` and
`MEM_CAP <= 2^MEM_ADDR_W`; every pair of values within those bounds is reached. -/
def Config.core : Config where
  opcStop := 0x00
  opcAdd := 0x01
  opcMul := 0x02
  opcPush1 := 0x60
  progMaxLen := min Config.freeProgMaxLen (2 ^ (Config.freePcW + 1) - 2)
  pcW := Config.freePcW + 1
  memAddrW := Config.freeMemAddrW
  memCap := min Config.freeMemCap (2 ^ Config.freeMemAddrW)
  rangeMaxLen := Config.freeRangeMaxLen
  truncPolicy := .fault

/-- Why bytes do not decode to an instruction. -/
inductive Reject where
  /-- There is no opcode byte: the program has ended. No error, but the implicit halt (R105). -/
  | endOfProgram
  /-- Decoding raises a fault: InvalidOpcode (R86) or TruncatedImmediate (R132). -/
  | raises (k : FaultKind)
  deriving DecidableEq, Repr

/-- The immediate of a format P1 instruction: the byte after the opcode (R82); where there is none, what
`TRUNC_IMM_POLICY` says (R132). Answers the immediate and the bytes after it. -/
def decodeImm (cfg : Config) : List Byte → Except FaultKind (Byte × List Byte)
  | imm :: rest => .ok (imm, rest)
  | [] =>
    match cfg.truncPolicy with
    | .fault => .error .truncatedImmediate
    | .zeroPad => .ok (0x00, [])

/-- The instruction of opcode byte `op`, the bytes `rest` standing after it, and the bytes that are left. The decision rests on
the opcode value alone (R85, R87); every value but the four is InvalidOpcode (R86, R103). -/
def decodeOpcode (cfg : Config) (op : Byte) (rest : List Byte) : Except FaultKind (Instr × List Byte) :=
  if op = cfg.opcStop then .ok (.stop, rest)
  else if op = cfg.opcAdd then .ok (.add, rest)
  else if op = cfg.opcMul then .ok (.mul, rest)
  else if op = cfg.opcPush1 then
    match decodeImm cfg rest with
    | .ok (imm, rest') => .ok (.push1 imm, rest')
    | .error k => .error k
  else .error .invalidOpcode

/-- The instruction at the front of `bytes`, and the bytes after it. -/
def decode (cfg : Config) : List Byte → Except Reject (Instr × List Byte)
  | [] => .error .endOfProgram
  | op :: rest =>
    match decodeOpcode cfg op rest with
    | .ok r => .ok r
    | .error k => .error (.raises k)

/-- The length in bytes that an opcode byte tells (R85); an illegal byte has none. -/
def opcodeLength (cfg : Config) (op : Byte) : Option Nat :=
  if op = cfg.opcPush1 then some 2
  else if op = cfg.opcStop ∨ op = cfg.opcAdd ∨ op = cfg.opcMul then some 1
  else none

/-- The opcode byte of an instruction (R84). -/
def opcodeOf (cfg : Config) : Instr → Byte
  | .stop => cfg.opcStop
  | .add => cfg.opcAdd
  | .mul => cfg.opcMul
  | .push1 _ => cfg.opcPush1

/-- The encoder: format O is the opcode byte (R81), format P1 the opcode byte and the immediate (R82). -/
def encode (cfg : Config) : Instr → List Byte
  | .stop => [cfg.opcStop]
  | .add => [cfg.opcAdd]
  | .mul => [cfg.opcMul]
  | .push1 imm => [cfg.opcPush1, imm]

/-- The length of an instruction in bytes (R80). -/
def Instr.length : Instr → Nat
  | .stop | .add | .mul => 1
  | .push1 _ => 2

/-- The bytes of a list of instructions, one after another (R90). -/
def encodeAll (cfg : Config) (is : List Instr) : List Byte := (is.map (encode cfg)).flatten

/-- The instructions that `fuel` decodings read one after another, and what stops them; `none` where the fuel ends first. -/
def decodeAll (cfg : Config) : (fuel : Nat) → List Byte → Option (List Instr × Reject)
  | 0, _ => none
  | fuel + 1, bytes =>
    match decode cfg bytes with
    | .error r => some ([], r)
    | .ok (i, rest) =>
      match decodeAll cfg fuel rest with
      | some (is, r) => some (i :: is, r)
      | none => none

/-- The diagnostic label of an opcode byte (R91): the mnemonic of the four values, and a free value for an illegal byte. It
plays no part in dispatch (R87). -/
def label (cfg : Config) (op : Byte) : String :=
  if op = cfg.opcStop then "STOP"
  else if op = cfg.opcAdd then "ADD"
  else if op = cfg.opcMul then "MUL"
  else if op = cfg.opcPush1 then "PUSH1"
  else Config.freeLabel op

/-- The bytes of an instruction whose bits are `w`, numbered as spec/opcode_table.json numbers them: its first byte is bits
7..0; where that byte's opcode has an immediate, a second byte, bits 15..8. Bits at and above `nbits` are zero. -/
def tableBytes (cfg : Config) (nbits w : Nat) : List Byte :=
  let v := w % 2 ^ nbits
  let op : Byte := BitVec.ofNat 8 v
  if op = cfg.opcPush1 then [op, BitVec.ofNat 8 (v / 2 ^ 8)] else [op]

/-- What the decoder reads from the table word `w` of `nbits` bits. -/
def decodeTableWord (nbits w : Nat) : Option Instr :=
  match decode Config.core (tableBytes Config.core nbits w) with
  | .ok (i, _) => some i
  | .error _ => none

end Sys2Proof
end

