-- ==== Sys2Proof/Machine/State.lean ====
section
/-! DEFINITION. The state of the machine (10_state.md R20), the reasons a step stops, and the state after reset. -/

namespace Sys2Proof.Machine

/-- The states of the Execution Context (R34, R100). Faulted is the spec's own addition (D8; DESIGN CHOICE, log 11). -/
inductive Status where
  | running
  | halted
  | faulted
  deriving DecidableEq, Repr

/-- One listed memory cell: its offset and its word (20_memory.md R52: no access splits a cell; DEDUCED, log 6). -/
abbrev Cell := Nat × Word

/-- The Linear Memory block (20_memory.md R52 to R54). -/
structure Memory where
  /-- The cells that do not read as zero, offsets strictly rising. A cell not listed reads as zero (R54). -/
  cells : List Cell
  /-- `mem_len`, the materialized length, a register of `MEM_ADDR_W + 1` bits (R14, R53). Its width is a parameter, so the number
  is held and `Memory.lenReg` is the register (DEDUCED, log 18). -/
  len : Nat
  deriving DecidableEq, Repr

/-- The architectural state of R20. -/
structure State where
  /-- The program buffer; its length is `L` (R29). -/
  prog : List Byte
  /-- The program counter, a register of `PC_W` bits (R30) that never wraps (R32). Its width is a parameter, so the number is
  held and `State.pcReg` is the register (DEDUCED, log 3). -/
  pc : Nat
  /-- The state-machine state (R34). -/
  status : Status
  /-- The fault-kind register (R36). -/
  fault : Option FaultKind
  /-- The operand stack `S`, bottom first and top last as R22 writes it; its length is `sp`. -/
  stack : List Word
  /-- The data memory (R39). -/
  mem : Memory
  deriving DecidableEq, Repr

/-- Why `step` has no next state. -/
inductive Fault where
  /-- A Step or a Dispatch was called in Halted: no transition, the current outcome is Halted (40_control.md R108, D9;
  DESIGN CHOICE, log 9).
  Raised by `stepWith` and `dispatchWith`. Safe: nothing can be proved of a state that does not come. -/
  | runHalted
  /-- A Step or a Dispatch was called in Faulted: no transition, the current outcome is Fault with the recorded kind (R108, R143;
  DESIGN CHOICE, log 9). Raised by `stepWith` and `dispatchWith`. Safe, as above. -/
  | runFaulted (recorded : Option FaultKind)
  deriving DecidableEq, Repr

/-- What the model, or a port of the core, turns away. -/
inductive Refusal where
  /-- An instruction that has no meaning yet. No arm of `exec` answers it. Safe. -/
  | notModelled (mnemonic : String)
  /-- Construct with a sequence longer than `PROG_MAX_LEN`: "no Execution Context is built" (70_reset_and_hazards.md R170, D4).
  Raised by `construct`. Safe. -/
  | programTooLong
  /-- MemLoadRange with a length above `RANGE_MAX_LEN`: "outside the port" (20_memory.md R58, D12). Raised by
  `Memory.loadRange`. Safe. -/
  | rangeTooLong
  deriving DecidableEq, Repr

/-- The memory as created: empty (R39). -/
def Memory.empty : Memory := { cells := [], len := 0 }

/-- The state after reset (70_reset_and_hazards.md R171) with no program placed: the program buffer is the sequence given at
construction, and here it is the empty one (DESIGN CHOICE, log 2). The pc is 0 by the spec's own choice (R33, D3; DESIGN CHOICE, log 10). -/
def State.reset : State where
  prog := []
  pc := 0
  status := .running
  fault := none
  stack := []
  mem := Memory.empty

end Sys2Proof.Machine
end

