-- ==== Sys2Proof/Machine/Ops.lean ====
section
/-! DEFINITION. The named operations: the ports of the Operand Stack (10_state.md R24, R25) and of the Linear Memory (20_memory.md
R55 to R59), the writes of the state's fields, and the entry to a fault (60_exceptions.md R142). There is no return from a fault
(R143). -/

namespace Sys2Proof.Machine

/-! ## The stack port -/

/-- `Push(w)` (R24): the capacity is checked before the stack is written. -/
def push (w : Word) (S : List Word) : Except FaultKind (List Word) :=
  if S.length + 1 ≤ stackDepth then .ok (S ++ [w]) else .error .stackOverflow

/-- `Pop()` (R25): answers the top and the stack without it. -/
def pop (S : List Word) : Except FaultKind (Word × List Word) :=
  match S.getLast? with
  | some w => .ok (w, S.dropLast)
  | none => .error .stackUnderflow

/-! ## The memory port -/

/-- The word that a list of cells gives offset `o`: zero where it lists none (R54). -/
def readCells : List Cell → Nat → Word
  | [], _ => 0
  | (a, v) :: rest, o => if a = o then v else readCells rest o

/-- A list of cells with the word of offset `o` replaced by `v`, in the canonical form: offsets rising, no zero listed. -/
def writeCells (o : Nat) (v : Word) : List Cell → List Cell
  | [] => if v = 0 then [] else [(o, v)]
  | (a, w) :: rest =>
    if a = o then (if v = 0 then rest else (o, v) :: rest)
    else if o < a then (if v = 0 then (a, w) :: rest else (o, v) :: (a, w) :: rest)
    else (a, w) :: writeCells o v rest

/-- The zero fill of R55, `for i in mem_len .. o: mem[i] <- 0`: no cell from `len` up to and including `o` stays listed. -/
def zeroFill (len o : Nat) (cells : List Cell) : List Cell :=
  cells.filter fun c => c.1 < len || o < c.1

/-- The canonical form: offsets strictly rising, no listed cell zero, every listed cell below the materialized length. -/
abbrev Memory.wf (m : Memory) : Prop :=
  m.cells.Pairwise (fun c d => c.1 < d.1) ∧ ∀ c ∈ m.cells, c.2 ≠ 0 ∧ c.1 < m.len

/-- `MemStore(o, v)` (R55) on natural numbers `o` and `v`, so that InvalidValue can be raised (D26); InvalidAccess comes first. A
fault leaves the memory as it was, since no memory is answered. -/
def Memory.store (cfg : Config) (m : Memory) (o v : Nat) : Except FaultKind Memory :=
  if o < cfg.memCap then
    if v < 2 ^ 256 then
      if m.len ≤ o then .ok { cells := writeCells o (BitVec.ofNat 256 v) (zeroFill m.len o m.cells), len := o + 1 }
      else .ok { cells := writeCells o (BitVec.ofNat 256 v) m.cells, len := m.len }
    else .error .invalidValue
  else .error .invalidAccess

/-- `MemLoad(o)` (R57): never fails, and reads zero at and beyond the materialized length. -/
def Memory.load (m : Memory) (o : Nat) : Word :=
  if o < m.len then readCells m.cells o else 0

/-- `MemLoadRange(o, n)` (R58): `o + i` is computed without wrap. -/
def Memory.loadRange (cfg : Config) (m : Memory) (o n : Nat) : Except Refusal (List Word) :=
  if n > cfg.rangeMaxLen then .error .rangeTooLong
  else .ok ((List.range n).map fun i => m.load (o + i))

/-- The size read-out (R59). -/
def Memory.size (m : Memory) : Nat := m.len

/-- The register `mem_len` of `MEM_ADDR_W + 1` bits (R53, D13). -/
def Memory.lenReg (cfg : Config) (m : Memory) : BitVec (cfg.memAddrW + 1) := BitVec.ofNat _ m.len

/-- A memory that fits its capacity: `mem_len` is at most `MEM_CAP` (R53). -/
abbrev Memory.Fits (cfg : Config) (m : Memory) : Prop := m.len ≤ cfg.memCap

/-- A harness driving the Memory block alone through a sequence of stores (R70): a store that faults leaves the block unchanged
and the block goes on accepting transactions (60_exceptions.md R144). -/
def Memory.storeAll (cfg : Config) : Memory → List (Nat × Nat) → Memory
  | m, [] => m
  | m, (o, v) :: rest =>
    match m.store cfg o v with
    | .ok m' => Memory.storeAll cfg m' rest
    | .error _ => Memory.storeAll cfg m rest

/-- A harness driving the Stack block alone through a sequence of pushes, stopping at the first fault (R26). -/
def pushAll : List Word → List Word → Except FaultKind (List Word)
  | [], S => .ok S
  | w :: rest, S =>
    match push w S with
    | .ok S' => pushAll rest S'
    | .error k => .error k

/-! ## Writing the state's fields -/

/-- The state with the program counter written. -/
def State.setPc (s : State) (pc : Nat) : State := { s with pc := pc }
/-- The state with the operand stack written. -/
def State.setStack (s : State) (S : List Word) : State := { s with stack := S }
/-- The state with the status written. -/
def State.setStatus (s : State) (st : Status) : State := { s with status := st }
/-- The state with the fault register written. -/
def State.setFault (s : State) (k : Option FaultKind) : State := { s with fault := k }

/-- The state once Decode has read the opcode byte: the counter is past it (40_control.md R101, 10_state.md R31). -/
def State.pastOpcode (s : State) : State := s.setPc (s.pc + 1)

/-- The register pc of `PC_W` bits (R30). -/
def State.pcReg (cfg : Config) (s : State) : BitVec cfg.pcW := BitVec.ofNat _ s.pc

/-- `t` with its pc written to the register of `PC_W` bits at the end of a transaction that began in `s`. A pc that the register
cannot hold would have to wrap, which R32 excludes, and pc never decreases (R110), so it stays where it was (DEDUCED, log 3). Only a
Dispatch of PUSH1 far past the program's end under `zero_pad` comes there: R30 makes the register wide enough for L + 1. -/
def fitPc (cfg : Config) (s t : State) : State := if t.pc < 2 ^ cfg.pcW then t else t.setPc s.pc

/-! ## Fault entry and the end of a transaction -/

/-- TAKING A FAULT (60_exceptions.md R142, R141, D5). `s` is the state at the start of the transaction, so pc, stack, memory and
program buffer are as they were there; the status becomes Faulted and the kind is recorded. Nothing is saved elsewhere and no
handler runs. That all but status and fault stay is the spec's own choice (DESIGN CHOICE, log 8). -/
def enterFault (k : FaultKind) (s : State) : State := (s.setStatus .faulted).setFault (some k)

/-- The end of a transaction that began in `s`: what a handler answers, or the fault entry if it raised one (R102, R107). -/
def settle (s : State) (r : Except FaultKind State) : State :=
  match r with
  | .ok t => t
  | .error k => enterFault k s

/-- The next state of an outcome, where it has one. -/
def nextOf (r : Host.Outcome State Fault Refusal) : Option State :=
  match r with
  | .next s => some s
  | .fault _ => none
  | .refused _ => none

end Sys2Proof.Machine
end

