-- ==== Sys2Proof/Machine/Operands.lean ====
section
/-! DEFINITION. Every operand form: the two implicit stack operands of ADD and MUL (41_arithmetic.md R120, R124) and the immediate
of PUSH1 (30_encoding.md R83, 42_push.md R131). -/

namespace Sys2Proof.Machine

/-- The two operands of ADD and MUL: first popped, second popped, and the stack without them (R120). That there are two words is
checked before either is popped (R124, D6). -/
def popTwo (S : List Word) : Except FaultKind (Word × Word × List Word) :=
  if 2 ≤ S.length then
    match pop S with
    | .error k => .error k
    | .ok (a, S₁) =>
      match pop S₁ with
      | .error k => .error k
      | .ok (b, S₂) => .ok (a, b, S₂)
  else .error .stackUnderflow

/-- `zext_256(b)` (00_scope.md R10): the byte as a word, widened with zeros, no sign extension (R83). -/
def zext256 (b : Byte) : Word := b.setWidth 256

/-- `ImmBE(p, n)` (R131): the value of the `n` bytes from `prog[p]` on, the most significant first. Bytes at or beyond the end of
the buffer count as zero here (DESIGN CHOICE, log 17); only `n = 1` is in this hardware, and its truncated case is `decodeImm`'s. -/
def immBE (prog : List Byte) (p n : Nat) : Nat :=
  ((List.range n).map fun i => (prog.getD (p + i) 0).toNat * 256 ^ (n - 1 - i)).sum

end Sys2Proof.Machine
end

