-- ==== Sys2Proof/Machine/Flags.lean ====
section
/-! DEFINITION. The arithmetic of ADD and MUL. There are no condition codes: "no instruction records a carry, overflow or zero flag"
(10_state.md R38), so what this file holds is the results alone (41_arithmetic.md R123). -/

namespace Sys2Proof.Machine

/-- `n mod 2^256` as a word: the carry or high half is discarded and recorded nowhere (R123). -/
def narrow (n : Nat) : Word := BitVec.ofNat 256 (n % 2 ^ 256)

/-- `(a + b) mod 2^256`, the sum taken exactly and then narrowed (R121, R123). -/
def addWord (a b : Word) : Word := narrow (a.toNat + b.toNat)

/-- `(a * b) mod 2^256`, the product taken exactly and then narrowed (R122, R123). -/
def mulWord (a b : Word) : Word := narrow (a.toNat * b.toNat)

end Sys2Proof.Machine
end

