-- ==== Sys2Proof/Machine/Arith.lean ====
section
/-! DEFINITION. ADD and MUL (41_arithmetic.md). A handler gets the state with pc past the opcode byte when it is called from Step; a
meaning is the whole Step transaction of its instruction, from the state with pc at the opcode byte. -/

namespace Sys2Proof.Machine

/-- The shape of a two-operand handler (R120): pop two, combine, push one; pc is not written. -/
def binaryHandler (f : Word → Word → Word) (s : State) : Except FaultKind State :=
  match popTwo s.stack with
  | .error k => .error k
  | .ok (a, b, S) =>
    match push (f a b) S with
    | .error k => .error k
    | .ok S' => .ok (s.setStack S')

/-- The handler of ADD (R121). -/
def addHandler (s : State) : Except FaultKind State := binaryHandler addWord s

/-- The handler of MUL (R122). -/
def mulHandler (s : State) : Except FaultKind State := binaryHandler mulWord s

/-- ADD: the Step transaction (R102, R121). -/
def execAdd (s : State) : Host.Outcome State Fault Refusal := .next (settle s (addHandler s.pastOpcode))

/-- MUL: the Step transaction (R102, R122). -/
def execMul (s : State) : Host.Outcome State Fault Refusal := .next (settle s (mulHandler s.pastOpcode))

end Sys2Proof.Machine
end

