-- ==== Sys2Proof/Machine/Control.lean ====
section
/-! DEFINITION. STOP (40_control.md R104). -/

namespace Sys2Proof.Machine

/-- The handler of STOP (R104): status only. It is also what the implicit halt runs, with pc where it stands (R105). -/
def stopHandler (s : State) : Except FaultKind State := .ok (s.setStatus .halted)

/-- STOP: the Step transaction (R102, R104). -/
def execStop (s : State) : Host.Outcome State Fault Refusal := .next (settle s (stopHandler s.pastOpcode))

end Sys2Proof.Machine
end

