-- ==== Sys2Proof/Machine/Push.lean ====
section
/-! DEFINITION. PUSH1 (42_push.md R130). -/

namespace Sys2Proof.Machine

/-- The handler of PUSH1 (R130), given the immediate byte that decoding read at the counter. That the immediate is there, or what
stands for it, is decided before (`decodeImm`): the truncation check precedes the overflow check (60_exceptions.md R145). The
overflow check precedes the writes of pc and stack. -/
def push1Handler (imm : Byte) (s : State) : Except FaultKind State :=
  match push (zext256 imm) s.stack with
  | .error k => .error k
  | .ok S => .ok ((s.setPc (s.pc + 1)).setStack S)

/-- PUSH1: the Step transaction (R102, R130). -/
def execPush1 (imm : Byte) (s : State) : Host.Outcome State Fault Refusal := .next (settle s (push1Handler imm s.pastOpcode))

end Sys2Proof.Machine
end

