-- ==== Sys2Proof/Machine/Dispatch.lean ====
section
/-! DEFINITION. One arm per instruction (40_control.md R103): `exec i s` is the Step transaction of instruction `i` that stands at
the pc of `s` (DEDUCED, log 12). -/

namespace Sys2Proof.Machine

def exec (i : Instr) (s : State) : Host.Outcome State Fault Refusal :=
  match i with
  | .stop => Sys2Proof.Machine.execStop s
  | .add => Sys2Proof.Machine.execAdd s
  | .mul => Sys2Proof.Machine.execMul s
  | .push1 imm => Sys2Proof.Machine.execPush1 imm s

end Sys2Proof.Machine
end

