-- ==== Sys2Proof/Machine/Context.lean ====
section
/-! DEFINITION. The Execution Context for any parameters (40_control.md) and the host's calls on it (70_reset_and_hazards.md R178):
construct, Step, Dispatch, run, the accessors and the debug read-out. -/

namespace Sys2Proof.Machine

/-! ## Decode and Exec -/

/-- What Decode answers (R101): the opcode, whether it is the implicit halt, and the state after it. -/
structure Decoded where
  op : Byte
  implicit : Bool
  after : State
  deriving DecidableEq, Repr

/-- `Decode()` (R101). It raises no fault. -/
def decodeByte (cfg : Config) (s : State) : Decoded :=
  match s.prog[s.pc]? with
  | none => { op := cfg.opcStop, implicit := true, after := s }
  | some b => { op := b, implicit := false, after := s.pastOpcode }

/-- The handler of an instruction (R103). -/
def handlerOf : Instr → State → Except FaultKind State
  | .stop => stopHandler
  | .add => addHandler
  | .mul => mulHandler
  | .push1 imm => push1Handler imm

/-- `Exec(op)` (R103) at the counter of `s`: PUSH1's immediate is the byte there, or what R132 puts in its place; an illegal value
raises InvalidOpcode. -/
def execOpcode (cfg : Config) (op : Byte) (s : State) : Except FaultKind State :=
  match decodeOpcode cfg op (s.prog.drop s.pc) with
  | .ok (i, _) => handlerOf i s
  | .error k => .error k

/-! ## Step and Dispatch -/

/-- One Step in Running (R102): run the instruction at the counter; at or past the end, halt with pc where it stands (R105); a byte
that does not decode raises its fault (R86, R132). -/
def stepRunning (cfg : Config) (s : State) : Host.Outcome State Fault Refusal :=
  match decode cfg (s.prog.drop s.pc) with
  | .ok (i, _) => exec i s
  | .error .endOfProgram => .next (settle s (stopHandler s))
  | .error (.raises k) => .next (enterFault k s)

/-- `Step()` (R102); no transition once the run has ended (R108; DESIGN CHOICE, log 9). -/
def stepWith (cfg : Config) (s : State) : Host.Outcome State Fault Refusal :=
  match s.status with
  | .running => stepRunning cfg s
  | .halted => .fault .runHalted
  | .faulted => .fault (.runFaulted s.fault)

/-- `Dispatch(op)` (R107): Exec at the counter with no Decode, its pc written to the register (R30, `fitPc`); no transition once the
run has ended (R108; DESIGN CHOICE, log 9). -/
def dispatchWith (cfg : Config) (op : Byte) (s : State) : Host.Outcome State Fault Refusal :=
  match s.status with
  | .running => .next (fitPc cfg s (settle s (execOpcode cfg op s)))
  | .halted => .fault .runHalted
  | .faulted => .fault (.runFaulted s.fault)

/-! ## run -/

/-- How a run has ended (R106, R179). -/
inductive RunOutcome where
  | halted
  | fault (recorded : Option FaultKind)
  deriving DecidableEq, Repr

/-- The outcome that a state stands for; none while Running. -/
def outcomeOf (s : State) : Option RunOutcome :=
  match s.status with
  | .running => none
  | .halted => some .halted
  | .faulted => some (.fault s.fault)

/-- At most `n` Steps, stopping where there is no transition. -/
def runSteps (cfg : Config) : Nat → State → State
  | 0, s => s
  | n + 1, s =>
    match stepWith cfg s with
    | .next t => runSteps cfg n t
    | .fault _ => s
    | .refused _ => s

/-- The state in which `run()` ends (R106): Steps while Running. `L + 1` Steps are enough (R111; DEDUCED, log 14). -/
def run (cfg : Config) (s : State) : State := runSteps cfg (s.prog.length + 1) s

/-- What `run()` returns (R106). -/
def runResult (cfg : Config) (s : State) : Option RunOutcome := outcomeOf (run cfg s)

/-! ## Sessions: the calls that a host makes on a constructed core -/

/-- The host calls that can change a constructed core (70_reset_and_hazards.md R178). -/
inductive HostCall where
  | run
  | step
  | dispatch (op : Byte)
  deriving DecidableEq, Repr

/-- The state after an outcome that began in `s`: where there is no transition, `s`. -/
def stateAfter (s : State) (r : Host.Outcome State Fault Refusal) : State :=
  match r with
  | .next t => t
  | .fault _ => s
  | .refused _ => s

/-- The state after a host call (R106, R102, R107, R108). -/
def callState (cfg : Config) (s : State) : HostCall → State
  | .run => run cfg s
  | .step => stateAfter s (stepWith cfg s)
  | .dispatch op => stateAfter s (dispatchWith cfg op s)

/-- The state after a session of host calls, in any order. -/
def callAll (cfg : Config) (s : State) (calls : List HostCall) : State := calls.foldl (callState cfg) s

/-! ## What the calls return -/

/-- The result of a Step or a Dispatch call (00_scope.md R12, R102, R107, R108). -/
inductive CallResult where
  /-- `Ok(op, status)`. -/
  | ok (op : Byte) (status : Status)
  /-- `Fault(kind)`. -/
  | fault (k : FaultKind)
  /-- The run had ended: its outcome, and no transition. -/
  | ended (o : RunOutcome)
  deriving DecidableEq, Repr

/-- The result of a transaction with opcode `op` whose Exec answered `r`. -/
def resultOf (op : Byte) (r : Except FaultKind State) : CallResult :=
  match r with
  | .ok t => .ok op t.status
  | .error k => .fault k

/-- What `Step()` returns (R102); its opcode is the one Decode reports, OPC_STOP for the implicit halt (R101). -/
def stepResult (cfg : Config) (s : State) : CallResult :=
  match outcomeOf s with
  | some o => .ended o
  | none => resultOf (decodeByte cfg s).op (execOpcode cfg (decodeByte cfg s).op (decodeByte cfg s).after)

/-- What `Dispatch(op)` returns (R107). -/
def dispatchResult (cfg : Config) (op : Byte) (s : State) : CallResult :=
  match outcomeOf s with
  | some o => .ended o
  | none => resultOf op (execOpcode cfg op s)

/-! ## Construction and read-out -/

/-- `Construct(P)` (70_reset_and_hazards.md R170, R171): refused above `PROG_MAX_LEN`. The only reset (R172). -/
def construct (cfg : Config) (P : List Byte) : Except Refusal State :=
  if P.length ≤ cfg.progMaxLen then .ok { State.reset with prog := P } else .error .programTooLong

/-- The 2-bit status output (R34). -/
def Status.code : Status → BitVec 2
  | .running => 0b00
  | .halted => 0b01
  | .faulted => 0b10

end Sys2Proof.Machine

namespace Sys2Proof

/-- The 3-bit code of a fault kind (R140, D10). -/
def FaultKind.code : FaultKind → BitVec 3
  | .stackOverflow => 1
  | .stackUnderflow => 2
  | .invalidOpcode => 3
  | .truncatedImmediate => 4
  | .invalidAccess => 5
  | .invalidValue => 6

/-- The kinds that a Step or a Dispatch can raise (R140, column "level"; R36). -/
def FaultKind.runLevel : FaultKind → Bool
  | .stackOverflow | .stackUnderflow | .invalidOpcode | .truncatedImmediate => true
  | .invalidAccess | .invalidValue => false

end Sys2Proof

namespace Sys2Proof.Machine

/-- The halted flag (10_state.md R35). -/
def State.haltedFlag (s : State) : Bool := s.status = .halted

/-- The fault output's code (60_exceptions.md R140). -/
def State.faultCode (s : State) : BitVec 3 :=
  match s.fault with
  | none => 0
  | some k => k.code

/-- The debug read-out (10_state.md R40): the state vector, memory as `mem_len` and the cells below it. -/
structure ReadOut where
  prog : List Byte
  pc : Nat
  status : BitVec 2
  halted : Bool
  fault : BitVec 3
  stack : List Word
  memLen : Nat
  cells : List Word
  deriving DecidableEq, Repr

/-- Reading the state out changes nothing (R40, R112). -/
def State.readOut (s : State) : ReadOut where
  prog := s.prog
  pc := s.pc
  status := s.status.code
  halted := s.haltedFlag
  fault := s.faultCode
  stack := s.stack
  memLen := s.mem.size
  cells := (List.range s.mem.size).map s.mem.load

/-- A program buffer with `bytes` standing from address `p` on, the bytes before and after as they were; zero bytes fill a gap
before `p`. -/
def placeBytes (prog : List Byte) (p : Nat) (bytes : List Byte) : List Byte :=
  (prog.take p ++ List.replicate (p - prog.length) 0) ++ (bytes ++ prog.drop (p + bytes.length))

end Sys2Proof.Machine
end

