-- ==== Sys2Proof/Machine/Step.lean ====
section
/-! DEFINITION. The step of the core with its parameters, and the placing of an instruction where it fetches next. -/

namespace Sys2Proof.Machine

/-- One Step of the core (40_control.md R102): the host call Step alone (DESIGN CHOICE, log 13). -/
def step (s : State) : Host.Outcome State Fault Refusal := stepWith Config.core s

/-- `s` with the instruction of table word `w` in the program buffer at the pc, and Running, so that the next step runs it. No
instruction or host call writes a constructed core's buffer (20_memory.md R68): this stands for constructing the core with a
program that holds the instruction there (DESIGN CHOICE, log 2). -/
def State.withFetchWord (s : State) (nbits w : Nat) : State :=
  { s with
    prog := placeBytes s.prog s.pc (tableBytes Config.core nbits w)
    status := .running
    fault := none }

end Sys2Proof.Machine
end

