-- ==== Sys2Proof/Machine/Assembler.lean ====
section
/-! DEFINITION. The assembler syntax of 30_encoding.md R90 (the spec's own choice, D20): one instruction per line, upper-case
mnemonics, PUSH1 with one operand 0 to 255 in decimal or with a `0x` start, `;` before a comment. No labels, no directives. What
R90 leaves open (blanks, empty lines, leading zeros, the case of hexadecimal digits) is DESIGN CHOICE, log 15. -/

namespace Sys2Proof.Machine

/-- Why a line is no instruction. -/
inductive AsmError where
  /-- The first word is none of the four mnemonics. -/
  | unknownMnemonic
  /-- PUSH1 without exactly one operand, or another instruction with one. -/
  | operandCount
  /-- An operand that is no number. -/
  | notANumber
  /-- An operand that the encoding cannot hold (`operandFits`). -/
  | operandRange
  deriving DecidableEq, Repr

/-- A character that parts the words of a line. -/
def isBlank (c : Char) : Bool := c = ' ' || c = '\t' || c = '\r'

/-- The words of a line; `acc` is the word being read, its last character first. -/
def wordsFrom : List Char → List Char → List (List Char)
  | acc, [] => if acc = [] then [] else [acc.reverse]
  | acc, c :: cs =>
    if isBlank c then (if acc = [] then wordsFrom [] cs else acc.reverse :: wordsFrom [] cs)
    else wordsFrom (c :: acc) cs

/-- The lines of a text; `acc` is the line being read, its last character first. -/
def linesFrom : List Char → List Char → List (List Char)
  | acc, [] => [acc.reverse]
  | acc, c :: cs => if c = '\n' then acc.reverse :: linesFrom [] cs else linesFrom (c :: acc) cs

/-- The value of a digit in a base up to 16. -/
def digitValue (base : Nat) (c : Char) : Option Nat :=
  let n := c.toNat
  let d := if 48 ≤ n ∧ n ≤ 57 then n - 48 else if 97 ≤ n ∧ n ≤ 102 then n - 87 else if 65 ≤ n ∧ n ≤ 70 then n - 55 else base
  if d < base then some d else none

/-- The number that digits write, after `acc`. -/
def digitsValue (base : Nat) : Nat → List Char → Option Nat
  | acc, [] => some acc
  | acc, c :: cs =>
    match digitValue base c with
    | some d => digitsValue base (acc * base + d) cs
    | none => none

/-- An integer in decimal, or in hexadecimal after `0x`. -/
def numberValue : List Char → Option Nat
  | [] => none
  | '0' :: 'x' :: c :: cs => digitsValue 16 0 (c :: cs)
  | c :: cs => digitsValue 10 0 (c :: cs)

/-- The operand of PUSH1. -/
def operandByte (cs : List Char) : Except AsmError Byte :=
  match numberValue cs with
  | none => .error .notANumber
  | some n => if operandFits (some n) then .ok (BitVec.ofNat 8 n) else .error .operandRange

/-- The instruction that the words of a line write; none for an empty line. -/
def readWords : List (List Char) → Except AsmError (Option Instr)
  | [] => .ok none
  | m :: ops =>
    if m = ['S', 'T', 'O', 'P'] then (if ops = [] then .ok (some .stop) else .error .operandCount)
    else if m = ['A', 'D', 'D'] then (if ops = [] then .ok (some .add) else .error .operandCount)
    else if m = ['M', 'U', 'L'] then (if ops = [] then .ok (some .mul) else .error .operandCount)
    else if m = ['P', 'U', 'S', 'H', '1'] then
      match ops with
      | [x] =>
        match operandByte x with
        | .ok b => .ok (some (.push1 b))
        | .error e => .error e
      | [] => .error .operandCount
      | _ :: _ :: _ => .error .operandCount
    else .error .unknownMnemonic

/-- The instruction of one line, its comment dropped. -/
def readLine (line : List Char) : Except AsmError (Option Instr) :=
  readWords (wordsFrom [] (line.takeWhile (· ≠ ';')))

/-- The instructions of a list of lines. -/
def readLines : List (List Char) → Except AsmError (List Instr)
  | [] => .ok []
  | l :: ls =>
    match readLine l with
    | .error e => .error e
    | .ok i =>
      match readLines ls with
      | .error e => .error e
      | .ok is => .ok (i.toList ++ is)

/-- The bytes of a text: "PUSH1 x assembles to the bytes OPC_PUSH1, x; the others to their opcode byte" (R90). -/
def assemble (cfg : Config) (text : List Char) : Except AsmError (List Byte) :=
  match readLines (linesFrom [] text) with
  | .error e => .error e
  | .ok is => .ok (encodeAll cfg is)

/-- A hexadecimal digit. -/
def hexDigit (n : Nat) : Char := Char.ofNat (if n < 10 then 48 + n else 55 + n)

/-- How an operand is written (R90: "in decimal or with a `0x` prefix"). -/
inductive Radix where
  /-- In decimal, without leading zeros. -/
  | decimal
  /-- `0x` and two digits. -/
  | hex
  /-- `0x` without leading zeros. -/
  | hexShort
  deriving DecidableEq, Repr

/-- The operand `n` (0 to 255) as written. -/
def operandText (n : Nat) : Radix → List Char
  | .decimal =>
    if n < 10 then [hexDigit n]
    else if n < 100 then [hexDigit (n / 10), hexDigit (n % 10)]
    else [hexDigit (n / 100), hexDigit (n / 10 % 10), hexDigit (n % 10)]
  | .hex => ['0', 'x', hexDigit (n / 16), hexDigit (n % 16)]
  | .hexShort => if n < 16 then ['0', 'x', hexDigit n] else ['0', 'x', hexDigit (n / 16), hexDigit (n % 16)]

/-- A line that writes an instruction, PUSH1's operand in the radix `r`. -/
def lineOf (r : Radix) : Instr → List Char
  | .stop => ['S', 'T', 'O', 'P']
  | .add => ['A', 'D', 'D']
  | .mul => ['M', 'U', 'L']
  | .push1 imm => ['P', 'U', 'S', 'H', '1', ' '] ++ operandText imm.toNat r

/-- A line of a source text: an instruction or none, and a comment or none (R90). -/
structure SourceLine where
  instr : Option Instr
  radix : Radix
  comment : Option (List Char)
  deriving DecidableEq, Repr

/-- A source line as written: the instruction, then `;` and the comment, then the end of the line. -/
def SourceLine.text (l : SourceLine) : List Char :=
  (match l.instr with
    | some i => lineOf l.radix i
    | none => []) ++
  (match l.comment with
    | some c => ' ' :: ';' :: c
    | none => []) ++ ['\n']

end Sys2Proof.Machine
end

