-- ==== Sys2Proof/Safety.lean ====
section
/-! DEFINITION. What a legal state is, and what a safe run is. -/

namespace Sys2Proof.Machine

/-- The greatest pc that R32 allows for a program of length `L`: `L`, and `L + 1` under `zero_pad`. -/
def pcLimit (cfg : Config) (L : Nat) : Nat :=
  match cfg.truncPolicy with
  | .fault => L
  | .zeroPad => L + 1

/-- The invariants that the spec states of the state, the range of the pc apart. -/
structure Legal (cfg : Config) (s : State) : Prop where
  /-- "length never exceeds a fixed maximum (1024)" (10_state.md R22). -/
  stackBound : s.stack.length ≤ stackDepth
  /-- `fault != None` exactly when `status = Faulted` (R36). -/
  faultIff : s.fault ≠ none ↔ s.status = .faulted
  /-- The fault register holds run-level kinds only (R36, 60_exceptions.md R140). -/
  faultLevel : ∀ k, s.fault = some k → k.runLevel = true
  /-- The memory is in its canonical form (20_memory.md R54). -/
  memWf : s.mem.wf
  /-- `mem_len` is at most `MEM_CAP` (R53). -/
  memFits : s.mem.Fits cfg
  /-- `L <= PROG_MAX_LEN` (R29). -/
  progBound : s.prog.length ≤ cfg.progMaxLen

/-- All the invariants: a legal state whose pc is in the range of R32. -/
structure Inv (cfg : Config) (s : State) : Prop extends Legal cfg s where
  /-- `pc <= L` under `fault`, `pc <= L + 1` under `zero_pad` (R32). -/
  pcRange : s.pc ≤ pcLimit cfg s.prog.length

/-- A run that ended in success (70_reset_and_hazards.md R179): Halted, no fault recorded. -/
abbrev SafeEnd (s : State) : Prop := s.status = .halted ∧ s.fault = none

end Sys2Proof.Machine
end

