-- ==== Sys2Proof/Certificates/Slice0/Obligations.lean ====
section
/-! DEFINITION. The statements for the provers, from the numbered rules of spec/. Each docstring names the rule, or the section and
the decision, that the statement formalises, and says where it rests on a choice of the spec's or of the model's. -/

open Sys2Proof Sys2Proof.Machine

/-! ## Encoding -/

/-- Words written out from 30_encoding.md sections 1 and 2 decode to the instructions they stand for, and a byte that is none of the
four values is refused. The opcode values are the spec's defaults (log 1). -/
def Obligations.SpecWordsDecode : Prop :=
  decodeTableWord 8 0b00000000 = some .stop ∧ decodeTableWord 8 0b00000001 = some .add ∧
  decodeTableWord 8 0b00000010 = some .mul ∧ decodeTableWord 16 0b0010101001100000 = some (.push1 0x2A) ∧
  decodeTableWord 8 0b00001011 = none ∧ decodeTableWord 8 0b01100001 = none

/-- Decoding an encoding gives the instruction back, with every byte as its immediate, whatever stands after it and for every choice
of four distinct opcode values (30_encoding.md sections 1 and 2). -/
def Obligations.EncodedInstructionDecodesBack : Prop :=
  ∀ cfg : Config, cfg.OpcodesDistinct → ∀ (i : Instr) (rest : List Byte), decode cfg (encode cfg i ++ rest) = .ok (i, rest)

/-- The other direction: what decodes is the encoding of what it decodes to. The one other sequence that decodes is a PUSH1 without
its immediate under `zero_pad`, as 42_push.md R132 (b) has it (decision D7; log 5). -/
def Obligations.DecodedBytesAreTheEncoding : Prop :=
  ∀ (cfg : Config) (bytes rest : List Byte) (i : Instr), decode cfg bytes = .ok (i, rest) →
    bytes = encode cfg i ++ rest ∨
    (cfg.truncPolicy = .zeroPad ∧ bytes = [cfg.opcPush1] ∧ i = .push1 0 ∧ rest = [])

/-- A sequence of instructions, encoded one after another, decodes to exactly that sequence and then ends: no byte of an immediate
is taken for an opcode (30_encoding.md sections 1 to 3; R88 is the spec's own inference). -/
def Obligations.InstructionSequenceDecodesBack : Prop :=
  ∀ cfg : Config, cfg.OpcodesDistinct → ∀ (is : List Instr) (fuel : Nat), is.length < fuel →
    decodeAll cfg fuel (encodeAll cfg is) = some (is, .endOfProgram)

/-- R113: exactly the four opcodes are admitted, and any other byte value is InvalidOpcode. -/
def Obligations.ExactlyFourOpcodes : Prop :=
  ∀ (cfg : Config) (op : Byte),
    (∀ rest, decode cfg (op :: rest) = .error (.raises .invalidOpcode) ↔
      op ∉ [cfg.opcStop, cfg.opcAdd, cfg.opcMul, cfg.opcPush1]) ∧
    (op ∈ [cfg.opcStop, cfg.opcAdd, cfg.opcMul, cfg.opcPush1] →
      ∀ b rest, ∃ i left, decode cfg (op :: b :: rest) = .ok (i, left) ∧ opcodeOf cfg i = op)

/-- The opcode byte alone tells an instruction's length (30_encoding.md section 2; R85 is the spec's own inference). -/
def Obligations.OpcodeTellsTheLength : Prop :=
  ∀ cfg : Config, cfg.OpcodesDistinct → ∀ (op : Byte) (rest left : List Byte) (i : Instr),
    decode cfg (op :: rest) = .ok (i, left) → opcodeLength cfg op = some i.length

/-- R103: Exec is the dispatch by opcode value. Each of the four values runs its own handler at the counter, PUSH1's with the byte
there as its immediate, and every other value raises InvalidOpcode. A handler neither reads nor writes the fault register, nor the
status but for STOP's write: with other contents of the two it answers the same. -/
def Obligations.ExecDispatchesByOpcode : Prop :=
  (∀ cfg : Config, cfg.OpcodesDistinct → ∀ s : State,
    execOpcode cfg cfg.opcStop s = stopHandler s ∧ execOpcode cfg cfg.opcAdd s = addHandler s ∧
    execOpcode cfg cfg.opcMul s = mulHandler s ∧
    (∀ imm, s.prog[s.pc]? = some imm → execOpcode cfg cfg.opcPush1 s = push1Handler imm s) ∧
    (∀ op, op ∉ [cfg.opcStop, cfg.opcAdd, cfg.opcMul, cfg.opcPush1] → execOpcode cfg op s = .error .invalidOpcode)) ∧
  ∀ (i : Instr) (s : State) (st : Status) (f : Option FaultKind),
    (∀ t, handlerOf i s = .ok t → handlerOf i { s with status := st, fault := f } =
      .ok { t with status := if i = .stop then .halted else st, fault := f }) ∧
    (∀ k, handlerOf i s = .error k → handlerOf i { s with status := st, fault := f } = .error k)

/-! ## The operand stack -/

/-- R24: Push appends its word as the new top up to 1024 words; beyond that it raises StackOverflow and answers no stack. -/
def Obligations.PushAppendsUpToCapacity : Prop :=
  ∀ (w : Word) (S : List Word),
    (S.length + 1 ≤ 1024 → push w S = .ok (S ++ [w])) ∧ (1024 < S.length + 1 → push w S = .error .stackOverflow)

/-- R25: Pop removes and answers the top; on the empty stack it raises StackUnderflow. -/
def Obligations.PopRemovesTheTop : Prop :=
  (∀ (w : Word) (S : List Word), pop (S ++ [w]) = .ok (w, S)) ∧ pop [] = .error .stackUnderflow

/-- R26: a Push and then a Pop gives the word back and leaves the stack; 1024 pushes onto an empty stack succeed, in push order, and
a further one raises StackOverflow; a Pop of an empty stack raises StackUnderflow. -/
def Obligations.StackLaws : Prop :=
  (∀ (w : Word) (S : List Word), S.length < 1024 → ∃ S', push w S = .ok S' ∧ pop S' = .ok (w, S)) ∧
  (∀ ws : List Word, ws.length = 1024 → pushAll ws [] = .ok ws ∧ ∀ w, push w ws = .error .stackOverflow) ∧
  pop [] = .error .stackUnderflow

/-! ## ADD and MUL -/

/-- R120: whatever the operation, the first popped word is its left operand and the second its right one, the result replaces both,
and nothing else is written; both operations here are commutative. The bound on the stack is R22's invariant. -/
def Obligations.FirstPopIsTheLeftOperand : Prop :=
  (∀ (f : Word → Word → Word) (s : State) (R : List Word) (x y : Word), s.stack = R ++ [y, x] → s.stack.length ≤ 1024 →
    binaryHandler f s = .ok { s with stack := R ++ [f x y] } ∧ (R ++ [f x y]).length + 1 = s.stack.length) ∧
  (∀ a b, addWord a b = addWord b a) ∧ ∀ a b, mulWord a b = mulWord b a

/-- R121: ADD replaces the two top words by their exact sum modulo 2^256, and the Step has moved pc past the opcode byte; no other
state changes. With fewer than two words its handler raises StackUnderflow. The bound on the stack is R22's invariant. -/
def Obligations.AddGivesTheSum : Prop :=
  (∀ (s : State) (R : List Word) (a b : Word), s.stack = R ++ [b, a] → s.stack.length ≤ 1024 →
    exec .add s = .next { s with pc := s.pc + 1, stack := R ++ [BitVec.ofNat 256 ((a.toNat + b.toNat) % 2 ^ 256)] }) ∧
  ∀ s : State, s.stack.length < 2 → addHandler s = .error .stackUnderflow

/-- R122: MUL replaces the two top words by their exact product modulo 2^256, and the Step has moved pc past the opcode byte; no
other state changes. With fewer than two words its handler raises StackUnderflow. The bound on the stack is R22's invariant. -/
def Obligations.MulGivesTheProduct : Prop :=
  (∀ (s : State) (R : List Word) (a b : Word), s.stack = R ++ [b, a] → s.stack.length ≤ 1024 →
    exec .mul s = .next { s with pc := s.pc + 1, stack := R ++ [BitVec.ofNat 256 ((a.toNat * b.toNat) % 2 ^ 256)] }) ∧
  ∀ s : State, s.stack.length < 2 → mulHandler s = .error .stackUnderflow

/-- ADD and MUL with fewer than two words take the fault StackUnderflow with everything but status and fault as it was. That the one
word is not lost is the spec's own choice (decision D6; log 8). -/
def Obligations.ShortStackUnderflows : Prop :=
  ∀ (s : State) (i : Instr), i = .add ∨ i = .mul → s.stack.length < 2 →
    exec i s = .next { s with status := .faulted, fault := some .stackUnderflow }

/-- ADD and MUL raise no fault but StackUnderflow (41_arithmetic.md section 4; R125 is the spec's own inference). The bound on the
stack is R22's invariant. -/
def Obligations.AddAndMulNeverOverflow : Prop :=
  ∀ (s : State) (k : FaultKind), s.stack.length ≤ 1024 → addHandler s = .error k ∨ mulHandler s = .error k →
    k = .stackUnderflow ∧ s.stack.length < 2

/-! ## PUSH1 -/

/-- R83: PUSH1's word is its immediate byte read as an unsigned integer and widened with zeros; the word is the new top, pc has
moved past both bytes, and no other state changes. -/
def Obligations.Push1PushesTheByte : Prop :=
  ∀ (imm : Byte) (s : State), s.stack.length < 1024 →
    exec (.push1 imm) s = .next { s with pc := s.pc + 2, stack := s.stack ++ [BitVec.ofNat 256 imm.toNat] }

/-- R131: the value of immediate bytes is big-endian, each further byte the less significant one; for one byte it is the byte
`prog[p]`, widened with zeros; and a Step at a PUSH1 pushes the value of the immediate at `pc + 1`. -/
def Obligations.ImmediateValueIsPushed : Prop :=
  (∀ (prog : List Byte) (p n : Nat) (b : Byte), prog[p + n]? = some b →
    immBE prog p (n + 1) = immBE prog p n * 256 + b.toNat) ∧
  (∀ (prog : List Byte) (p : Nat) (b : Byte), prog[p]? = some b → immBE prog p 1 = b.toNat ∧ (zext256 b).toNat = immBE prog p 1) ∧
  ∀ cfg : Config, cfg.OpcodesDistinct → ∀ s : State, s.status = .running → s.prog[s.pc]? = some cfg.opcPush1 →
    s.pc + 1 < s.prog.length → s.stack.length < 1024 →
    stepWith cfg s = .next { s with pc := s.pc + 2, stack := s.stack ++ [BitVec.ofNat 256 (immBE s.prog (s.pc + 1) 1)] }

/-- PUSH1 on a full stack takes the fault StackOverflow with everything but status and fault as it was (60_exceptions.md section 2,
decision D5; log 8). -/
def Obligations.FullStackOverflows : Prop :=
  ∀ (imm : Byte) (s : State), 1024 ≤ s.stack.length →
    exec (.push1 imm) s = .next { s with status := .faulted, fault := some .stackOverflow }

/-- A PUSH1 at the last byte of the program, under both policies (42_push.md R132, decision D7; log 5): `fault` takes
TruncatedImmediate, whatever the stack holds (60_exceptions.md R145); `zero_pad` pushes 0 and moves pc to L + 1, or takes
StackOverflow on a full stack. -/
def Obligations.TruncatedImmediatePolicies : Prop :=
  ∀ cfg : Config, cfg.OpcodesDistinct → ∀ s : State, s.status = .running → s.prog[s.pc]? = some cfg.opcPush1 →
    s.prog.length = s.pc + 1 →
    (cfg.truncPolicy = .fault → stepWith cfg s = .next { s with status := .faulted, fault := some .truncatedImmediate }) ∧
    (cfg.truncPolicy = .zeroPad → s.stack.length < 1024 →
      stepWith cfg s = .next { s with pc := s.prog.length + 1, stack := s.stack ++ [0] }) ∧
    (cfg.truncPolicy = .zeroPad → 1024 ≤ s.stack.length →
      stepWith cfg s = .next { s with status := .faulted, fault := some .stackOverflow })

/-! ## Control -/

/-- STOP writes the status, pc is the address after it, nothing else changes, and no Step after it decodes or runs anything
(40_control.md R104). The last clause rests on decision D9, R108: a Step in Halted has no transition (log 9). -/
def Obligations.StopHalts : Prop :=
  ∀ s : State, exec .stop s = .next { s with status := .halted, pc := s.pc + 1 } ∧
    ∀ (cfg : Config) (t : State), stepWith cfg { s with status := .halted, pc := s.pc + 1 } ≠ .next t

/-- R105: at or past the end, Decode reports OPC_STOP with no byte read and the Step halts with pc where it stands; so does the
first Step of an empty program. -/
def Obligations.EndOfProgramHalts : Prop :=
  ∀ (cfg : Config) (s : State), s.status = .running → s.prog.length ≤ s.pc →
    decodeByte cfg s = { op := cfg.opcStop, implicit := true, after := s } ∧
    stepWith cfg s = .next { s with status := .halted }

/-- R101: Decode reads one byte at the counter and advances it by one, unless the counter is at or past the end, where it yields
OPC_STOP and changes nothing; it decodes every byte value and raises no fault. -/
def Obligations.DecodeReadsOneByte : Prop :=
  ∀ (cfg : Config) (s : State),
    (s.prog.length ≤ s.pc → decodeByte cfg s = { op := cfg.opcStop, implicit := true, after := s }) ∧
    (∀ b, s.prog[s.pc]? = some b → decodeByte cfg s = { op := b, implicit := false, after := { s with pc := s.pc + 1 } })

/-- A Step in Running, at bytes that decode to an instruction, is exec of that instruction at that very state: exec moves pc past
the instruction's bytes, and the Step adds nothing (40_control.md section 3). The same of the core's own step. -/
def Obligations.StepRunsTheDecodedInstruction : Prop :=
  (∀ (cfg : Config) (s : State) (i : Instr) (rest : List Byte), s.status = .running →
    decode cfg (s.prog.drop s.pc) = .ok (i, rest) → stepWith cfg s = exec i s) ∧
  ∀ (s : State) (i : Instr) (rest : List Byte), s.status = .running →
    decode Config.core (s.prog.drop s.pc) = .ok (i, rest) → i.wf = true ∧ step s = exec i s

/-- An instruction placed where the core fetches next is the one its next step runs, from every state (log 2). -/
def Obligations.PlacedWordRunsNext : Prop :=
  ∀ (s : State) (nbits w : Nat) (i : Instr), decodeTableWord nbits w = some i →
    step (s.withFetchWord nbits w) = exec i (s.withFetchWord nbits w)

/-- A Step is Decode and then Exec, and a fault is entered from the state before Decode (40_control.md section 3, R102; that pc is
restored is decision D5, log 8). -/
def Obligations.StepIsDecodeThenExec : Prop :=
  ∀ (cfg : Config) (s : State), s.status = .running →
    stepWith cfg s = .next (settle s (execOpcode cfg (decodeByte cfg s).op (decodeByte cfg s).after))

/-- What a Step call and a Dispatch call return agrees with the state they leave: Ok with the opcode, Decode's or the one given, and
the new status, or Fault with the kind recorded (40_control.md sections 3 and 5, 00_scope.md section 5; decision D8, log 11). -/
def Obligations.StepReportsItsOutcome : Prop :=
  (∀ (cfg : Config) (s t : State), stepWith cfg s = .next t →
    (stepResult cfg s = .ok (decodeByte cfg s).op t.status ∧ t.status ≠ .faulted) ∨
    ∃ k, stepResult cfg s = .fault k ∧ t.status = .faulted ∧ t.fault = some k) ∧
  ∀ (cfg : Config) (op : Byte) (s t : State), dispatchWith cfg op s = .next t →
    (dispatchResult cfg op s = .ok op t.status ∧ t.status ≠ .faulted) ∨
    ∃ k, dispatchResult cfg op s = .fault k ∧ t.status = .faulted ∧ t.fault = some k

/-- In Running, Dispatch ends the transaction with what Exec answers at the counter, with no Decode (40_control.md section 5, R107):
its pc is written to the register, and that changes nothing unless the register cannot hold the pc after a PUSH1 (R30; log 3). -/
def Obligations.DispatchIsExecAtTheCounter : Prop :=
  ∀ (cfg : Config) (op : Byte) (s : State), s.status = .running →
    dispatchWith cfg op s = .next (fitPc cfg s (settle s (execOpcode cfg op s))) ∧
    (op ≠ cfg.opcPush1 ∨ s.pc + 1 < 2 ^ cfg.pcW → dispatchWith cfg op s = .next (settle s (execOpcode cfg op s)))

/-- Dispatch runs the handler of its opcode at the counter with no byte consumed for it: PUSH1 reads its immediate at `prog[pc]` and
moves pc by one, the others by none, and an illegal value takes InvalidOpcode (40_control.md section 5, 42_push.md R133; the pc
advances are the spec's own inference). A short stack takes StackUnderflow and a full one StackOverflow. PUSH1 at or past the end
takes TruncatedImmediate under `fault`, whatever the stack holds; under `zero_pad` it pushes 0 and moves pc by one there too (R132,
R145; decision D7), and only where the register of pc is at its greatest value pc stays (log 3). The state after a fault is
decision D5's (log 8). The bounds are invariants: R22's on the stack, R29's and R30's on the program and the register. -/
def Obligations.DispatchRunsAtTheCounter : Prop :=
  ∀ cfg : Config, cfg.OpcodesDistinct → ∀ s : State, s.status = .running →
    dispatchWith cfg cfg.opcStop s = .next { s with status := .halted } ∧
    (∀ R a b, s.stack = R ++ [b, a] → s.stack.length ≤ 1024 →
      dispatchWith cfg cfg.opcAdd s = .next { s with stack := R ++ [BitVec.ofNat 256 (a.toNat + b.toNat)] } ∧
      dispatchWith cfg cfg.opcMul s = .next { s with stack := R ++ [BitVec.ofNat 256 (a.toNat * b.toNat)] }) ∧
    (s.stack.length < 2 →
      dispatchWith cfg cfg.opcAdd s = .next { s with status := .faulted, fault := some .stackUnderflow } ∧
      dispatchWith cfg cfg.opcMul s = .next { s with status := .faulted, fault := some .stackUnderflow }) ∧
    (∀ imm, s.prog[s.pc]? = some imm → s.stack.length < 1024 → cfg.PcWide → s.prog.length ≤ cfg.progMaxLen →
      dispatchWith cfg cfg.opcPush1 s = .next { s with pc := s.pc + 1, stack := s.stack ++ [zext256 imm] }) ∧
    (s.pc < s.prog.length ∨ cfg.truncPolicy = .zeroPad → 1024 ≤ s.stack.length →
      dispatchWith cfg cfg.opcPush1 s = .next { s with status := .faulted, fault := some .stackOverflow }) ∧
    (s.prog.length ≤ s.pc → cfg.truncPolicy = .fault →
      dispatchWith cfg cfg.opcPush1 s = .next { s with status := .faulted, fault := some .truncatedImmediate }) ∧
    (s.pc = s.prog.length → cfg.truncPolicy = .zeroPad → s.stack.length < 1024 → cfg.PcWide → s.prog.length ≤ cfg.progMaxLen →
      dispatchWith cfg cfg.opcPush1 s = .next { s with pc := s.prog.length + 1, stack := s.stack ++ [0] }) ∧
    (s.prog.length < s.pc → cfg.truncPolicy = .zeroPad → s.stack.length < 1024 → s.pc + 1 < 2 ^ cfg.pcW →
      dispatchWith cfg cfg.opcPush1 s = .next { s with pc := s.pc + 1, stack := s.stack ++ [0] }) ∧
    (s.prog.length < s.pc → cfg.truncPolicy = .zeroPad → s.stack.length < 1024 → s.pc + 1 = 2 ^ cfg.pcW →
      dispatchWith cfg cfg.opcPush1 s = .next { s with stack := s.stack ++ [0] }) ∧
    (∀ op, op ∉ [cfg.opcStop, cfg.opcAdd, cfg.opcMul, cfg.opcPush1] →
      dispatchWith cfg op s = .next { s with status := .faulted, fault := some .invalidOpcode })

/-- The pc advance of a Step: none on a fault or the implicit halt, two for PUSH1, one for the others (40_control.md section 6;
R109 is the spec's own inference). -/
def Obligations.PcAdvanceOfAStep : Prop :=
  ∀ cfg : Config, cfg.OpcodesDistinct → ∀ s t : State, stepWith cfg s = .next t →
    t.pc = if t.status = .faulted ∨ s.prog.length ≤ s.pc then s.pc
      else if s.prog[s.pc]? = some cfg.opcPush1 then s.pc + 2 else s.pc + 1

/-- R110: there is no control transfer. No call on the core lowers pc, and none moves it by more than an instruction's length. -/
def Obligations.PcNeverDecreases : Prop :=
  ∀ (cfg : Config) (s t : State),
    (∀ i, exec i s = .next t → s.pc ≤ t.pc ∧ t.pc ≤ s.pc + i.length) ∧
    (stepWith cfg s = .next t → s.pc ≤ t.pc ∧ t.pc ≤ s.pc + 2) ∧
    (∀ op, dispatchWith cfg op s = .next t → s.pc ≤ t.pc ∧ t.pc ≤ s.pc + 1)

/-- After the end of a run neither Step nor Dispatch has a transition, both return the current outcome, and run returns it too and
changes nothing (40_control.md section 5, R106 and R108; decisions D8, D9; log 9). -/
def Obligations.EndedRunHasNoTransition : Prop :=
  ∀ (cfg : Config) (op : Byte) (s : State),
    (s.status = .halted → stepWith cfg s = .fault .runHalted ∧ dispatchWith cfg op s = .fault .runHalted ∧
      stepResult cfg s = .ended .halted ∧ dispatchResult cfg op s = .ended .halted ∧
      run cfg s = s ∧ runResult cfg s = some .halted) ∧
    (s.status = .faulted → stepWith cfg s = .fault (.runFaulted s.fault) ∧
      dispatchWith cfg op s = .fault (.runFaulted s.fault) ∧
      stepResult cfg s = .ended (.fault s.fault) ∧ dispatchResult cfg op s = .ended (.fault s.fault) ∧
      run cfg s = s ∧ runResult cfg s = some (.fault s.fault))

/-- Every run ends, from every state and under every choice of parameters, within L + 1 Steps, and more Steps change nothing
(40_control.md section 5; R111 is the spec's own inference). -/
def Obligations.RunEndsWithinItsBound : Prop :=
  ∀ (cfg : Config) (s : State), (run cfg s).status ≠ .running ∧ (runResult cfg s).isSome = true ∧
    ∀ n, s.prog.length + 1 ≤ n → runSteps cfg n s = run cfg s

/-- A run of any program from construction ends Halted with no fault recorded, or Faulted with a run-level kind recorded, and run
returns which (70_reset_and_hazards.md R179, 10_state.md R36; decision D8). -/
def Obligations.RunEndsHaltedOrFaulted : Prop :=
  ∀ (cfg : Config) (P : List Byte) (s : State), construct cfg P = .ok s →
    (SafeEnd (run cfg s) ∧ runResult cfg s = some .halted) ∨
    ∃ k, k.runLevel = true ∧ (run cfg s).status = .faulted ∧ (run cfg s).fault = some k ∧
      runResult cfg s = some (.fault (some k))

/-- When a Step leaves the halted flag set: exactly when pc was at or past the end or stood at OPC_STOP (10_state.md R35; that a
fault leaves it clear is decision D8). -/
def Obligations.HaltedFlagAfterAStep : Prop :=
  ∀ (cfg : Config) (s t : State), stepWith cfg s = .next t →
    (t.haltedFlag = true ↔ s.prog.length ≤ s.pc ∨ s.prog[s.pc]? = some cfg.opcStop)

/-! ## Faults -/

/-- Fault entry is precise: a Step or a Dispatch that leaves Faulted has changed status and fault alone, and the recorded kind is a
run-level one (60_exceptions.md section 2, decision D5; log 8). -/
def Obligations.FaultEntryIsPrecise : Prop :=
  ∀ (cfg : Config) (op : Byte) (s t : State), stepWith cfg s = .next t ∨ dispatchWith cfg op s = .next t →
    t.status = .faulted → ∃ k, k.runLevel = true ∧ t = { s with status := .faulted, fault := some k }

/-- An unrecognized opcode byte at the counter takes InvalidOpcode, with stack and memory as they were immediately before that
decode step (95_test_vectors.md Part 1, Scenario D; 40_control.md R103). -/
def Obligations.InvalidOpcodeLeavesStackAndMemory : Prop :=
  ∀ (cfg : Config) (s : State) (op : Byte), s.status = .running → s.prog[s.pc]? = some op →
    op ∉ [cfg.opcStop, cfg.opcAdd, cfg.opcMul, cfg.opcPush1] →
    ∃ t, stepWith cfg s = .next t ∧ t.status = .faulted ∧ t.fault = some .invalidOpcode ∧ t.stack = s.stack ∧ t.mem = s.mem

/-- The codes of the fault output are the spec's numbers 0 to 6, one for each content of the fault register, 7 is never produced;
the status codes are 0 to 2, and 3 is never produced (60_exceptions.md R140, 10_state.md R34; decisions D8, D10). -/
def Obligations.OutputCodes : Prop :=
  (∀ s t : State, s.faultCode = t.faultCode ↔ s.fault = t.fault) ∧ (∀ s : State, s.faultCode ≠ 7) ∧
  (∀ s : State, s.faultCode = 0 ↔ s.fault = none) ∧
  [FaultKind.stackOverflow, .stackUnderflow, .invalidOpcode, .truncatedImmediate, .invalidAccess, .invalidValue].map
    FaultKind.code = [1, 2, 3, 4, 5, 6] ∧
  [Status.running, .halted, .faulted].map Status.code = [0b00, 0b01, 0b10] ∧ ∀ st : Status, st.code ≠ 0b11

/-! ## Reset and invariants -/

/-- R28 and R39: a constructed core, and the reset state, has an empty stack, every memory cell zero and mem_len 0. -/
def Obligations.ResetLeavesStackAndMemoryEmpty : Prop :=
  ∀ s : State, (s = State.reset ∨ ∃ cfg P, construct cfg P = .ok s) →
    s.stack = [] ∧ s.stack.length = 0 ∧ (∀ o, s.mem.load o = 0) ∧ s.mem.size = 0

/-- Construction sets the program buffer and every other element to its reset value, and is refused above PROG_MAX_LEN
(70_reset_and_hazards.md section 1). That pc is 0 is the spec's own choice (decision D3), as are status, fault and the bound
(decisions D8, D4). -/
def Obligations.ConstructSetsEveryElement : Prop :=
  ∀ (cfg : Config) (P : List Byte),
    (P.length ≤ cfg.progMaxLen →
      construct cfg P = .ok { prog := P, pc := 0, status := .running, fault := none, stack := [], mem := { cells := [], len := 0 } }) ∧
    (cfg.progMaxLen < P.length → construct cfg P = .error .programTooLong)

/-- The invariants hold right after reset, and after every construction. -/
def Obligations.ResetMeetsTheInvariants : Prop :=
  Inv Config.core State.reset ∧ ∀ (cfg : Config) (P : List Byte) (s : State), construct cfg P = .ok s → Inv cfg s

/-- Every step of the core keeps the invariants: the stack within 1024 words, the fault register set exactly in Faulted and with a
run-level kind, the memory in canonical form and within its capacity, the program within its bound, pc at most L (10_state.md R22,
R32, R36, 20_memory.md R53, R54). -/
def Obligations.EveryStepKeepsTheInvariants : Prop :=
  ∀ s s' : State, Inv Config.core s → step s = .next s' → Inv Config.core s'

/-- The same for a Step and a Dispatch under any parameters, `zero_pad` among them, where pc may reach L + 1. All the invariants but
the range of pc hold whatever is called; that range (10_state.md R32, the spec's own inference) every Step and every Dispatch keeps,
but for a Dispatch of PUSH1 past L under `zero_pad`, which R132 (b) moves on (log 3). And so after any session of host calls on a
constructed core. -/
def Obligations.EveryCallKeepsTheInvariants : Prop :=
  (∀ (cfg : Config) (s s' : State), Inv cfg s → stepWith cfg s = .next s' → Inv cfg s') ∧
  (∀ (cfg : Config) (s s' : State) (op : Byte),
    cfg.truncPolicy = .fault ∨ s.pc ≤ s.prog.length ∨ op ≠ cfg.opcPush1 → Inv cfg s → dispatchWith cfg op s = .next s' → Inv cfg s') ∧
  (∀ (cfg : Config) (s s' : State) (op : Byte), Legal cfg s → stepWith cfg s = .next s' ∨ dispatchWith cfg op s = .next s' →
    Legal cfg s') ∧
  ∀ (cfg : Config) (P : List Byte) (s : State) (calls : List HostCall), construct cfg P = .ok s →
    Legal cfg (callAll cfg s calls) ∧
    (cfg.truncPolicy = .fault ∨ .dispatch cfg.opcPush1 ∉ calls → Inv cfg (callAll cfg s calls))

/-- The register of PC_W bits holds every pc in the range of R32, and every value that pc takes in any session of Steps, Dispatches
and runs on a constructed core; a Step and a Dispatch keep pc within it (10_state.md R30, decision D4; R32 is the spec's own
inference, and what a Dispatch past the end leaves where the register is at its greatest value is log 3). -/
def Obligations.PcFitsItsRegister : Prop :=
  (∀ (cfg : Config) (s : State), cfg.Valid → Inv cfg s → s.pc < 2 ^ cfg.pcW) ∧
  (∀ (cfg : Config) (s : State), s.pc < 2 ^ cfg.pcW → (s.pcReg cfg).toNat = s.pc) ∧
  (∀ (cfg : Config) (s s' : State) (op : Byte), cfg.Valid → s.prog.length ≤ cfg.progMaxLen → s.pc < 2 ^ cfg.pcW →
    stepWith cfg s = .next s' ∨ dispatchWith cfg op s = .next s' → s'.pc < 2 ^ cfg.pcW) ∧
  ∀ (cfg : Config) (P : List Byte) (s : State) (calls : List HostCall), cfg.Valid → construct cfg P = .ok s →
    (callAll cfg s calls).pc < 2 ^ cfg.pcW

/-! ## What instructions leave unchanged -/

/-- R68: no instruction and no call writes the program buffer, so every fetch of a run sees the bytes given at construction. -/
def Obligations.ProgramBufferIsNeverWritten : Prop :=
  (∀ (i : Instr) (s t : State), exec i s = .next t → t.prog = s.prog) ∧
  (∀ (cfg : Config) (op : Byte) (s t : State), stepWith cfg s = .next t ∨ dispatchWith cfg op s = .next t → t.prog = s.prog) ∧
  ∀ (cfg : Config) (P : List Byte) (s : State) (n : Nat), construct cfg P = .ok s → (runSteps cfg n s).prog = P

/-- No instruction and no call reaches the data memory, and a run leaves it as created (20_memory.md section 2; R60 is the spec's own
inference). -/
def Obligations.MemoryIsNeverTouched : Prop :=
  (∀ (cfg : Config) (op : Byte) (s t : State), stepWith cfg s = .next t ∨ dispatchWith cfg op s = .next t →
    t.mem = s.mem ∧ ∀ o, t.mem.load o = s.mem.load o) ∧
  ∀ (cfg : Config) (P : List Byte) (s : State) (n : Nat), construct cfg P = .ok s →
    (runSteps cfg n s).mem = Memory.empty ∧ ∀ o, (runSteps cfg n s).mem.load o = 0

/-- The memory has no influence on a Step: with another memory, the same outcome, and that memory kept (20_memory.md section 2; R60
is the spec's own inference). -/
def Obligations.MemoryHasNoInfluence : Prop :=
  ∀ (cfg : Config) (s : State) (m : Memory),
    (∀ t, stepWith cfg s = .next t → stepWith cfg { s with mem := m } = .next { t with mem := m }) ∧
    (∀ f, stepWith cfg s = .fault f → stepWith cfg { s with mem := m } = .fault f)

/-- A Step depends on at most two bytes of the program, the one at pc and, where that is PUSH1's opcode, the next: every other byte
may be anything (30_encoding.md section 3; R88 is the spec's own inference). -/
def Obligations.OnlyTheFetchedBytesMatter : Prop :=
  ∀ (cfg : Config) (s t : State) (p : List Byte), p[s.pc]? = s.prog[s.pc]? →
    (s.prog[s.pc]? = some cfg.opcPush1 → p[s.pc + 1]? = s.prog[s.pc + 1]?) →
    stepWith cfg s = .next t → stepWith cfg { s with prog := p } = .next { t with prog := p }

/-- The frame of STOP, which stores nothing: the program buffer, the stack, the fault register and every memory cell are unchanged,
and the status is Halted. -/
def Obligations.StopFrame : Prop :=
  ∀ s t : State, exec .stop s = .next t →
    t.prog = s.prog ∧ t.stack = s.stack ∧ t.fault = s.fault ∧ t.status = .halted ∧ t.mem = s.mem ∧
    ∀ o, t.mem.load o = s.mem.load o

/-- The frame of ADD and MUL, which store nothing to memory: the program buffer, every memory cell and every stack word below the two
operands are unchanged, and status and fault are unchanged unless the instruction takes a fault (the state after one is decision
D5's, log 8). -/
def Obligations.AddAndMulFrame : Prop :=
  ∀ (i : Instr) (s t : State), i = .add ∨ i = .mul → exec i s = .next t →
    t.prog = s.prog ∧ t.mem = s.mem ∧ (∀ o, t.mem.load o = s.mem.load o) ∧
    t.stack.take (s.stack.length - 2) = s.stack.take (s.stack.length - 2) ∧
    ((t.status = s.status ∧ t.fault = s.fault ∧ t.stack.length + 1 = s.stack.length) ∨
     (t.status = .faulted ∧ t.fault ≠ none ∧ t.stack = s.stack))

/-- The frame of PUSH1, which stores nothing to memory: the program buffer, every memory cell and every word that was on the stack are
unchanged, and status and fault are unchanged unless the instruction takes a fault (the state after one is decision D5's, log 8). -/
def Obligations.Push1Frame : Prop :=
  ∀ (imm : Byte) (s t : State), exec (.push1 imm) s = .next t →
    t.prog = s.prog ∧ t.mem = s.mem ∧ (∀ o, t.mem.load o = s.mem.load o) ∧ t.stack.take s.stack.length = s.stack ∧
    ((t.status = s.status ∧ t.fault = s.fault ∧ t.stack.length = s.stack.length + 1) ∨
     (t.status = .faulted ∧ t.fault = some .stackOverflow ∧ t.stack = s.stack))

/-! ## The memory port -/

/-- The outcome of a store, InvalidAccess before InvalidValue (20_memory.md section 2 and 60_exceptions.md R145; decisions D5, D11,
D26). -/
def Obligations.StoreOutcome : Prop :=
  ∀ (cfg : Config) (m : Memory) (o v : Nat),
    (cfg.memCap ≤ o → m.store cfg o v = .error .invalidAccess) ∧
    (o < cfg.memCap → 2 ^ 256 ≤ v → m.store cfg o v = .error .invalidValue) ∧
    (o < cfg.memCap → v < 2 ^ 256 → ∃ m', m.store cfg o v = .ok m')

/-- R56: growth is exact. -/
def Obligations.StoreGrowsExactly : Prop :=
  ∀ (cfg : Config) (m m' : Memory) (o v : Nat), m.store cfg o v = .ok m' → m'.size = max m.size (o + 1)

/-- After a store, the stored offset loads the value stored and every other offset loads what it did (20_memory.md section 2, and
95_test_vectors.md Part 1, W4). -/
def Obligations.LoadAfterStore : Prop :=
  ∀ (cfg : Config) (m m' : Memory) (o v : Nat), m.wf → m.store cfg o v = .ok m' →
    ∀ a, m'.load a = if a = o then BitVec.ofNat 256 v else m.load a

/-- R57: a load gives the cell below mem_len and zero at or beyond it, for any offset, the capacity notwithstanding. -/
def Obligations.LoadNeverFails : Prop :=
  ∀ (m : Memory) (o : Nat), (o < m.size → m.load o = readCells m.cells o) ∧ (m.size ≤ o → m.load o = 0)

/-- R54, over every sequence of stores from an empty memory, those that fault among them (a store is successful exactly within the
bounds of R55, its offset below MEM_CAP and its value below 2^256: decisions D11, D26): (a) mem_len never decreases, (b) a cell at
or beyond it reads as zero, (c) so does a cell that no successful store named, (d) mem_len is 0 if no store succeeded and else one
more than the highest offset of a successful store. -/
def Obligations.MemoryInvariants : Prop :=
  (∀ (cfg : Config) (m : Memory) (ops : List (Nat × Nat)), m.size ≤ (m.storeAll cfg ops).size) ∧
  (∀ (m : Memory) (o : Nat), m.size ≤ o → m.load o = 0) ∧
  ∀ (cfg : Config) (ops : List (Nat × Nat)),
    (∀ o, (∀ v, (o, v) ∈ ops → ¬ (o < cfg.memCap ∧ v < 2 ^ 256)) → (Memory.empty.storeAll cfg ops).load o = 0) ∧
    ((∀ o v, (o, v) ∈ ops → ¬ (o < cfg.memCap ∧ v < 2 ^ 256)) → (Memory.empty.storeAll cfg ops).size = 0) ∧
    (∀ o v, (o, v) ∈ ops → o < cfg.memCap → v < 2 ^ 256 → o + 1 ≤ (Memory.empty.storeAll cfg ops).size) ∧
    ((Memory.empty.storeAll cfg ops).size ≠ 0 →
      ∃ o v, (o, v) ∈ ops ∧ o < cfg.memCap ∧ v < 2 ^ 256 ∧ (Memory.empty.storeAll cfg ops).size = o + 1)

/-- A load gives the value of the most recent successful store to its offset (20_memory.md section 5, decision D15). -/
def Obligations.LoadReturnsTheLastStore : Prop :=
  ∀ (cfg : Config) (m : Memory) (earlier later : List (Nat × Nat)) (o v : Nat), m.wf → o < cfg.memCap → v < 2 ^ 256 →
    (∀ v', (o, v') ∈ later → 2 ^ 256 ≤ v') →
    (m.storeAll cfg (earlier ++ (o, v) :: later)).load o = BitVec.ofNat 256 v

/-- The register mem_len of MEM_ADDR_W + 1 bits holds every length that a memory comes to: a store keeps the length within MEM_CAP,
so does every sequence of stores, and such a length, MEM_CAP itself among them, fits the register (20_memory.md R53; decisions D11,
D13; log 18). -/
def Obligations.MemLenFitsItsRegister : Prop :=
  (∀ (cfg : Config) (m m' : Memory) (o v : Nat), m.Fits cfg → m.store cfg o v = .ok m' → m'.Fits cfg) ∧
  (∀ (cfg : Config) (ops : List (Nat × Nat)), (Memory.empty.storeAll cfg ops).size ≤ cfg.memCap) ∧
  ∀ (cfg : Config) (m : Memory), cfg.Valid → m.size ≤ cfg.memCap →
    m.size < 2 ^ (cfg.memAddrW + 1) ∧ (m.lenReg cfg).toNat = m.size

/-- A range load is that many loads, with no wrap and no fault, up to RANGE_MAX_LEN, above which it is refused (20_memory.md section 2,
decision D12). -/
def Obligations.RangeLoadIsLoads : Prop :=
  ∀ (cfg : Config) (m : Memory) (o n : Nat),
    (n ≤ cfg.rangeMaxLen → ∃ ws, m.loadRange cfg o n = .ok ws ∧ ws.length = n ∧ ∀ i, i < n → ws[i]? = some (m.load (o + i))) ∧
    (cfg.rangeMaxLen < n → m.loadRange cfg o n = .error .rangeTooLong)

/-! ## Read-out and assembler -/

/-- The read-out shows the whole state: two states with memories in canonical form and the same read-out are the same state
(10_state.md section 7, decision D23). -/
def Obligations.ReadOutDeterminesTheState : Prop :=
  ∀ s t : State, s.mem.wf → t.mem.wf → s.readOut = t.readOut → s = t

/-- A source text assembles to the bytes of its instructions: one line for each, PUSH1's operand in decimal or with `0x`, a comment
after `;` on a line with an instruction or without one; and an operand above 255 is refused (30_encoding.md section 4, decision D20;
that a line may hold no instruction is log 15). -/
def Obligations.AssemblerGivesTheEncoding : Prop :=
  (∀ (cfg : Config) (lines : List SourceLine), (∀ l ∈ lines, ∀ c, l.comment = some c → '\n' ∉ c) →
    assemble cfg ((lines.map SourceLine.text).flatten) = .ok (encodeAll cfg (lines.filterMap SourceLine.instr))) ∧
  ∀ (x : List Char) (n : Nat), numberValue x = some n → 255 < n → operandByte x = .error .operandRange
end

