-- ==== Sys2Proof/Laws/Decode.lean ====
section
/-! SUPPORT. What the decoder can answer, said once, and the parameters of the core. -/

namespace Sys2Proof

/-- What decoding an opcode byte can answer. -/
theorem decodeOpcode_ok {cfg : Config} {op : Byte} {bytes rest : List Byte} {i : Instr}
    (h : decodeOpcode cfg op bytes = .ok (i, rest)) :
    (i = .stop ∧ op = cfg.opcStop ∧ rest = bytes) ∨ (i = .add ∧ op = cfg.opcAdd ∧ rest = bytes) ∨
    (i = .mul ∧ op = cfg.opcMul ∧ rest = bytes) ∨
    (∃ imm, i = .push1 imm ∧ op = cfg.opcPush1 ∧ decodeImm cfg bytes = .ok (imm, rest)) := by
  unfold decodeOpcode at h
  split_ifs at h with h1 h2 h3 h4
  · cases h; exact .inl ⟨rfl, h1, rfl⟩
  · cases h; exact .inr (.inl ⟨rfl, h2, rfl⟩)
  · cases h; exact .inr (.inr (.inl ⟨rfl, h3, rfl⟩))
  · split at h
    · next hi => cases h; exact .inr (.inr (.inr ⟨_, rfl, h4, hi⟩))
    · cases h

/-- What decoding an immediate can answer. -/
theorem decodeImm_ok {cfg : Config} {bytes rest : List Byte} {imm : Byte} (h : decodeImm cfg bytes = .ok (imm, rest)) :
    bytes = imm :: rest ∨ (bytes = [] ∧ cfg.truncPolicy = .zeroPad ∧ imm = 0 ∧ rest = []) := by
  cases bytes with
  | cons b bs =>
    rw [decodeImm] at h
    cases h
    exact .inl rfl
  | nil =>
    rw [decodeImm] at h
    cases hp : cfg.truncPolicy with
    | fault => simp only [hp] at h; cases h
    | zeroPad =>
      simp only [hp] at h
      cases h
      exact .inr ⟨rfl, rfl, rfl, rfl⟩

theorem decodeImm_error {cfg : Config} {bytes : List Byte} {k : FaultKind} (h : decodeImm cfg bytes = .error k) :
    bytes = [] ∧ cfg.truncPolicy = .fault ∧ k = .truncatedImmediate := by
  cases bytes with
  | cons b bs => rw [decodeImm] at h; cases h
  | nil =>
    rw [decodeImm] at h
    cases hp : cfg.truncPolicy with
    | fault => simp only [hp] at h; cases h; exact ⟨rfl, rfl, rfl⟩
    | zeroPad => simp only [hp] at h; cases h

/-- Decoding raises InvalidOpcode or TruncatedImmediate and nothing else. -/
theorem decodeOpcode_error {cfg : Config} {op : Byte} {bytes : List Byte} {k : FaultKind}
    (h : decodeOpcode cfg op bytes = .error k) :
    (k = .invalidOpcode ∧ op ≠ cfg.opcStop ∧ op ≠ cfg.opcAdd ∧ op ≠ cfg.opcMul ∧ op ≠ cfg.opcPush1) ∨
    (k = .truncatedImmediate ∧ op = cfg.opcPush1 ∧ bytes = [] ∧ cfg.truncPolicy = .fault) := by
  unfold decodeOpcode at h
  split_ifs at h with h1 h2 h3 h4
  · split at h
    · cases h
    · next hi =>
      cases h
      obtain ⟨hb, hp, hk⟩ := decodeImm_error hi
      exact .inr ⟨hk, h4, hb, hp⟩
  · cases h; exact .inl ⟨rfl, h1, h2, h3, h4⟩

@[simp] theorem decode_nil (cfg : Config) : decode cfg [] = .error .endOfProgram := rfl

theorem decode_cons_ok {cfg : Config} {op : Byte} {bytes rest : List Byte} {i : Instr} :
    decode cfg (op :: bytes) = .ok (i, rest) ↔ decodeOpcode cfg op bytes = .ok (i, rest) := by
  rw [decode]
  cases decodeOpcode cfg op bytes <;> simp

theorem decode_cons_raises {cfg : Config} {op : Byte} {bytes : List Byte} {k : FaultKind} :
    decode cfg (op :: bytes) = .error (.raises k) ↔ decodeOpcode cfg op bytes = .error k := by
  rw [decode]
  cases decodeOpcode cfg op bytes <;> simp

/-- Only the empty sequence ends the program. -/
theorem decode_end {cfg : Config} {bytes : List Byte} : decode cfg bytes = .error .endOfProgram ↔ bytes = [] := by
  cases bytes with
  | nil => simp
  | cons op bytes =>
    rw [decode]
    cases decodeOpcode cfg op bytes <;> simp

/-- The core's parameters are ones the spec admits, whatever the open values are. -/
theorem core_valid : Config.core.Valid := by
  refine ⟨by decide, ?_, min_le_right _ _⟩
  have h : 2 ≤ 2 ^ (Config.freePcW + 1) := by
    rw [pow_succ]
    have := Nat.one_le_two_pow (n := Config.freePcW)
    omega
  have hm : min Config.freeProgMaxLen (2 ^ (Config.freePcW + 1) - 2) ≤ 2 ^ (Config.freePcW + 1) - 2 := min_le_right _ _
  show min Config.freeProgMaxLen (2 ^ (Config.freePcW + 1) - 2) + 2 ≤ 2 ^ (Config.freePcW + 1)
  omega

end Sys2Proof
end

