-- ==== Sys2Proof/Laws/Ops.lean ====
section
/-! SUPPORT. What each shared operation can do, said once: the stack port, the operand forms, the arithmetic, the memory port. -/

namespace Sys2Proof.Machine

/-! ## The stack port and the operand forms -/

theorem push_ok {w : Word} {S S' : List Word} (h : push w S = .ok S') :
    S.length + 1 ≤ stackDepth ∧ S' = S ++ [w] := by
  unfold push at h
  split at h
  · next hl => exact ⟨hl, by simpa using h.symm⟩
  · cases h

theorem push_error {w : Word} {S : List Word} {k : FaultKind} (h : push w S = .error k) :
    stackDepth ≤ S.length ∧ k = .stackOverflow := by
  unfold push at h
  split at h
  · cases h
  · next hl => exact ⟨by omega, by simpa using h.symm⟩

theorem push_of_room {S : List Word} (w : Word) (h : S.length + 1 ≤ stackDepth) : push w S = .ok (S ++ [w]) := if_pos h

theorem push_of_full {S : List Word} (w : Word) (h : stackDepth ≤ S.length) : push w S = .error .stackOverflow :=
  if_neg (by omega)

@[simp] theorem pop_append (S : List Word) (w : Word) : pop (S ++ [w]) = .ok (w, S) := by simp [pop]

@[simp] theorem pop_nil : pop [] = .error .stackUnderflow := rfl

theorem popTwo_append (R : List Word) (a b : Word) : popTwo (R ++ [b, a]) = .ok (a, b, R) := by
  have h : R ++ [b, a] = (R ++ [b]) ++ [a] := by simp
  rw [popTwo, if_pos (by simp), h]
  simp only [pop_append]

theorem popTwo_of_short {S : List Word} (h : S.length < 2) : popTwo S = .error .stackUnderflow :=
  if_neg (by omega)

/-- Two words on the stack, written as the spec writes them: `S = [..., y, x]` (R120). -/
theorem exists_two_on_top {S : List Word} (h : 2 ≤ S.length) : ∃ R a b, S = R ++ [b, a] := by
  induction S using List.reverseRecOn with
  | nil => simp at h
  | append_singleton S₁ a _ =>
    induction S₁ using List.reverseRecOn with
    | nil => simp at h
    | append_singleton R b _ => exact ⟨R, a, b, by simp⟩

theorem popTwo_ok {S R : List Word} {a b : Word} (h : popTwo S = .ok (a, b, R)) : S = R ++ [b, a] := by
  by_cases hl : 2 ≤ S.length
  · obtain ⟨R', a', b', rfl⟩ := exists_two_on_top hl
    rw [popTwo_append] at h
    cases h
    rfl
  · rw [popTwo_of_short (by omega)] at h
    cases h

theorem popTwo_error {S : List Word} {k : FaultKind} (h : popTwo S = .error k) : S.length < 2 ∧ k = .stackUnderflow := by
  by_cases hl : 2 ≤ S.length
  · obtain ⟨R', a', b', rfl⟩ := exists_two_on_top hl
    rw [popTwo_append] at h
    cases h
  · rw [popTwo_of_short (by omega)] at h
    exact ⟨by omega, by cases h; rfl⟩

/-! ## The arithmetic -/

theorem narrow_toNat (n : Nat) : (narrow n).toNat = n % 2 ^ 256 := by simp [narrow]

theorem addWord_eq (a b : Word) : addWord a b = a + b :=
  BitVec.eq_of_toNat_eq (by rw [addWord, narrow_toNat, BitVec.toNat_add])

theorem mulWord_eq (a b : Word) : mulWord a b = a * b :=
  BitVec.eq_of_toNat_eq (by rw [mulWord, narrow_toNat, BitVec.toNat_mul])

/-! ## The memory port -/

theorem store_ok {cfg : Config} {m m' : Memory} {o v : Nat} (h : m.store cfg o v = .ok m') :
    o < cfg.memCap ∧ v < 2 ^ 256 ∧ m'.len = max m.len (o + 1) ∧
      m'.cells = writeCells o (BitVec.ofNat 256 v) (if m.len ≤ o then zeroFill m.len o m.cells else m.cells) := by
  unfold Memory.store at h
  split at h <;> [skip; cases h]
  split at h <;> [skip; cases h]
  split at h <;> cases h
  · next hl => exact ⟨‹_›, ‹_›, by simp only; omega, by rw [if_pos hl]⟩
  · next hl => exact ⟨‹_›, ‹_›, by simp only; omega, by rw [if_neg hl]⟩

/-- A written list holds nothing but the new cell, if its word is not zero, and the old cells of other offsets. -/
theorem mem_writeCells {o : Nat} {v : Word} {cells : List Cell} {c : Cell} (h : c ∈ writeCells o v cells) :
    (c = (o, v) ∧ v ≠ 0) ∨ c ∈ cells := by
  induction cells with
  | nil =>
    unfold writeCells at h
    split at h <;> simp_all
  | cons d rest ih =>
    unfold writeCells at h
    split_ifs at h <;> simp at h ⊢ <;> tauto

theorem writeCells_pairwise (o : Nat) (v : Word) {cells : List Cell} (h : cells.Pairwise (fun c d => c.1 < d.1)) :
    (writeCells o v cells).Pairwise (fun c d => c.1 < d.1) := by
  induction cells with
  | nil => unfold writeCells; split <;> simp
  | cons d rest ih =>
    obtain ⟨hd, hr⟩ := List.pairwise_cons.1 h
    unfold writeCells
    split_ifs with h1 h2 h3 h4
    · exact hr
    · exact List.pairwise_cons.2 ⟨fun c hc => h1 ▸ hd c hc, hr⟩
    · exact h
    · refine List.pairwise_cons.2 ⟨fun c hc => ?_, h⟩
      rcases List.mem_cons.1 hc with rfl | hc
      · exact h3
      · exact lt_trans h3 (hd c hc)
    · refine List.pairwise_cons.2 ⟨fun c hc => ?_, ih hr⟩
      rcases mem_writeCells hc with ⟨rfl, _⟩ | hc
      · simp only; omega
      · exact hd c hc

theorem zeroFill_sublist (len o : Nat) (cells : List Cell) : (zeroFill len o cells).Sublist cells := List.filter_sublist

/-- In a memory of canonical form the zero fill finds nothing to clear: the cells it fills are "already zero by rule R54". -/
theorem zeroFill_of_wf {m : Memory} (h : m.wf) (o : Nat) : zeroFill m.len o m.cells = m.cells :=
  List.filter_eq_self.2 fun c hc => by simp [(h.2 c hc).2]

theorem empty_wf : Memory.empty.wf := by decide

/-- Every store keeps the canonical form. -/
theorem store_wf {cfg : Config} {m m' : Memory} {o v : Nat} (hm : m.wf) (h : m.store cfg o v = .ok m') : m'.wf := by
  obtain ⟨-, -, hlen, hcells⟩ := store_ok h
  have hc : m'.cells = writeCells o (BitVec.ofNat 256 v) m.cells := by
    rw [hcells]
    split
    · rw [zeroFill_of_wf hm]
    · rfl
  refine ⟨hc ▸ writeCells_pairwise _ _ hm.1, fun c hmem => ?_⟩
  rcases mem_writeCells (hc ▸ hmem) with ⟨rfl, hv⟩ | hmem
  · exact ⟨hv, by simp only; omega⟩
  · exact ⟨(hm.2 c hmem).1, by have := (hm.2 c hmem).2; omega⟩

/-- Every store keeps the memory within its capacity (R53). -/
theorem store_fits {cfg : Config} {m m' : Memory} {o v : Nat} (hm : m.Fits cfg) (h : m.store cfg o v = .ok m') : m'.Fits cfg := by
  obtain ⟨ho, -, hlen, -⟩ := store_ok h
  simp only [Memory.Fits] at hm ⊢
  omega

theorem storeAll_wf {cfg : Config} {m : Memory} (hm : m.wf) (ops : List (Nat × Nat)) : (m.storeAll cfg ops).wf := by
  induction ops generalizing m with
  | nil => exact hm
  | cons p rest ih =>
    unfold Memory.storeAll
    split
    · next h => exact ih (store_wf hm h)
    · exact ih hm

/-- Reading after a write: the written offset gives the word written, every other offset what it gave. -/
theorem readCells_writeCells (o a : Nat) (v : Word) {cells : List Cell} (h : cells.Pairwise (fun c d => c.1 < d.1)) :
    readCells (writeCells o v cells) a = if a = o then v else readCells cells a := by
  induction cells with
  | nil =>
    unfold writeCells
    by_cases hv : v = 0
    · simp [hv, readCells]
    · by_cases ha : a = o
      · simp only [if_neg hv, readCells, ha, if_true]
      · simp only [if_neg hv, readCells, if_neg ha, if_neg (Ne.symm ha)]
  | cons d rest ih =>
    obtain ⟨hd, hr⟩ := List.pairwise_cons.1 h
    have hno : ∀ b, b ≤ d.1 → readCells rest b = 0 := by
      clear ih h
      intro b hb
      induction rest with
      | nil => rfl
      | cons e rest ih =>
        have he := hd e (by simp)
        rw [readCells, if_neg (by omega)]
        exact ih (fun c hc => hd c (by simp [hc])) (List.pairwise_cons.1 hr).2
    unfold writeCells
    by_cases h1 : d.1 = o
    · by_cases h2 : v = 0
      · simp only [h1, h2, if_true]
        by_cases ha : a = o
        · rw [if_pos ha, hno a (by omega)]
        · simp only [readCells, h1, if_neg ha, if_neg (Ne.symm ha)]
      · simp only [h1, h2, if_true, if_false]
        by_cases ha : a = o
        · simp [readCells, ha]
        · simp only [readCells, h1, if_neg ha, if_neg (Ne.symm ha)]
    · by_cases h3 : o < d.1
      · by_cases h2 : v = 0
        · simp only [h1, h2, h3, if_true, if_false]
          by_cases ha : a = o
          · rw [if_pos ha, readCells, if_neg (by omega), hno a (by omega)]
          · rw [if_neg ha]
        · simp only [h1, h2, h3, if_true, if_false]
          by_cases ha : a = o
          · simp [readCells, ha]
          · rw [readCells, if_neg (Ne.symm ha), if_neg ha]
      · simp only [h1, h3, if_false, readCells, ih hr]
        by_cases ha : a = o
        · simp only [ha, h1, if_true, if_false]
        · simp only [ha, if_false]

end Sys2Proof.Machine
end

