-- ==== Sys2Proof/Laws/State.lean ====
section
/-! SUPPORT. What each write of the state's fields leaves in each field: one lemma per field per update, true by rfl. -/

namespace Sys2Proof.Machine

variable (s : State)

@[simp] theorem State.setPc_prog (p : Nat) : (s.setPc p).prog = s.prog := rfl
@[simp] theorem State.setPc_pc (p : Nat) : (s.setPc p).pc = p := rfl
@[simp] theorem State.setPc_status (p : Nat) : (s.setPc p).status = s.status := rfl
@[simp] theorem State.setPc_fault (p : Nat) : (s.setPc p).fault = s.fault := rfl
@[simp] theorem State.setPc_stack (p : Nat) : (s.setPc p).stack = s.stack := rfl
@[simp] theorem State.setPc_mem (p : Nat) : (s.setPc p).mem = s.mem := rfl

@[simp] theorem State.setStack_prog (S : List Word) : (s.setStack S).prog = s.prog := rfl
@[simp] theorem State.setStack_pc (S : List Word) : (s.setStack S).pc = s.pc := rfl
@[simp] theorem State.setStack_status (S : List Word) : (s.setStack S).status = s.status := rfl
@[simp] theorem State.setStack_fault (S : List Word) : (s.setStack S).fault = s.fault := rfl
@[simp] theorem State.setStack_stack (S : List Word) : (s.setStack S).stack = S := rfl
@[simp] theorem State.setStack_mem (S : List Word) : (s.setStack S).mem = s.mem := rfl

@[simp] theorem State.setStatus_prog (st : Status) : (s.setStatus st).prog = s.prog := rfl
@[simp] theorem State.setStatus_pc (st : Status) : (s.setStatus st).pc = s.pc := rfl
@[simp] theorem State.setStatus_status (st : Status) : (s.setStatus st).status = st := rfl
@[simp] theorem State.setStatus_fault (st : Status) : (s.setStatus st).fault = s.fault := rfl
@[simp] theorem State.setStatus_stack (st : Status) : (s.setStatus st).stack = s.stack := rfl
@[simp] theorem State.setStatus_mem (st : Status) : (s.setStatus st).mem = s.mem := rfl

@[simp] theorem State.setFault_prog (k : Option FaultKind) : (s.setFault k).prog = s.prog := rfl
@[simp] theorem State.setFault_pc (k : Option FaultKind) : (s.setFault k).pc = s.pc := rfl
@[simp] theorem State.setFault_status (k : Option FaultKind) : (s.setFault k).status = s.status := rfl
@[simp] theorem State.setFault_fault (k : Option FaultKind) : (s.setFault k).fault = k := rfl
@[simp] theorem State.setFault_stack (k : Option FaultKind) : (s.setFault k).stack = s.stack := rfl
@[simp] theorem State.setFault_mem (k : Option FaultKind) : (s.setFault k).mem = s.mem := rfl

@[simp] theorem State.pastOpcode_prog : s.pastOpcode.prog = s.prog := rfl
@[simp] theorem State.pastOpcode_pc : s.pastOpcode.pc = s.pc + 1 := rfl
@[simp] theorem State.pastOpcode_status : s.pastOpcode.status = s.status := rfl
@[simp] theorem State.pastOpcode_fault : s.pastOpcode.fault = s.fault := rfl
@[simp] theorem State.pastOpcode_stack : s.pastOpcode.stack = s.stack := rfl
@[simp] theorem State.pastOpcode_mem : s.pastOpcode.mem = s.mem := rfl

@[simp] theorem enterFault_prog (k : FaultKind) : (enterFault k s).prog = s.prog := rfl
@[simp] theorem enterFault_pc (k : FaultKind) : (enterFault k s).pc = s.pc := rfl
@[simp] theorem enterFault_status (k : FaultKind) : (enterFault k s).status = .faulted := rfl
@[simp] theorem enterFault_fault (k : FaultKind) : (enterFault k s).fault = some k := rfl
@[simp] theorem enterFault_stack (k : FaultKind) : (enterFault k s).stack = s.stack := rfl
@[simp] theorem enterFault_mem (k : FaultKind) : (enterFault k s).mem = s.mem := rfl

theorem fitPc_pc (cfg : Config) (t : State) : (fitPc cfg s t).pc = if t.pc < 2 ^ cfg.pcW then t.pc else s.pc := by
  unfold fitPc; split <;> rfl
@[simp] theorem fitPc_prog (cfg : Config) (t : State) : (fitPc cfg s t).prog = t.prog := by unfold fitPc; split <;> rfl
@[simp] theorem fitPc_status (cfg : Config) (t : State) : (fitPc cfg s t).status = t.status := by unfold fitPc; split <;> rfl
@[simp] theorem fitPc_fault (cfg : Config) (t : State) : (fitPc cfg s t).fault = t.fault := by unfold fitPc; split <;> rfl
@[simp] theorem fitPc_stack (cfg : Config) (t : State) : (fitPc cfg s t).stack = t.stack := by unfold fitPc; split <;> rfl
@[simp] theorem fitPc_mem (cfg : Config) (t : State) : (fitPc cfg s t).mem = t.mem := by unfold fitPc; split <;> rfl

/-- A pc that the register can hold is written as it is. -/
theorem fitPc_of_lt {cfg : Config} {s t : State} (h : t.pc < 2 ^ cfg.pcW) : fitPc cfg s t = t := if_pos h

/-- What does not move the counter is not changed by writing it. -/
theorem fitPc_of_pc_eq {cfg : Config} {s t : State} (h : t.pc = s.pc) : fitPc cfg s t = t := by
  unfold fitPc
  split
  · rfl
  · rw [← h]; rfl

@[simp] theorem fitPc_enterFault (cfg : Config) (k : FaultKind) : fitPc cfg s (enterFault k s) = enterFault k s :=
  fitPc_of_pc_eq rfl

@[simp] theorem settle_ok (t : State) : settle s (.ok t) = t := rfl
@[simp] theorem settle_error (k : FaultKind) : settle s (.error k) = enterFault k s := rfl

end Sys2Proof.Machine
end

