-- ==== Sys2Proof/Laws/Exec.lean ====
section
/-! SUPPORT. What a handler, an instruction, a Step and a Dispatch can do, said once. -/

namespace Sys2Proof.Machine

/-- What a two-operand handler that completes has done. -/
theorem binaryHandler_ok {f : Word → Word → Word} {s t : State} (h : binaryHandler f s = .ok t) :
    ∃ R a b, s.stack = R ++ [b, a] ∧ R.length + 1 ≤ stackDepth ∧ t = s.setStack (R ++ [f a b]) := by
  unfold binaryHandler at h
  split at h
  · cases h
  · next a b R hp =>
    split at h
    · cases h
    · next S' hpush =>
      obtain ⟨hl, rfl⟩ := push_ok hpush
      cases h
      exact ⟨R, a, b, popTwo_ok hp, hl, rfl⟩

/-- A two-operand handler raises StackUnderflow on a short stack, and nothing else on a stack within its bound (R124, R125). -/
theorem binaryHandler_error {f : Word → Word → Word} {s : State} {k : FaultKind} (h : binaryHandler f s = .error k) :
    (k = .stackUnderflow ∧ s.stack.length < 2) ∨ (k = .stackOverflow ∧ stackDepth + 2 ≤ s.stack.length) := by
  unfold binaryHandler at h
  split at h
  · next hp =>
    cases h
    obtain ⟨hl, rfl⟩ := popTwo_error hp
    exact .inl ⟨rfl, hl⟩
  · next a b R hp =>
    split at h
    · next hpush =>
      cases h
      obtain ⟨hl, rfl⟩ := push_error hpush
      have hS := popTwo_ok hp
      exact .inr ⟨rfl, by rw [hS]; simp only [List.length_append, List.length_cons, List.length_nil]; omega⟩
    · cases h

theorem push1Handler_ok {imm : Byte} {s t : State} (h : push1Handler imm s = .ok t) :
    s.stack.length + 1 ≤ stackDepth ∧ t = (s.setPc (s.pc + 1)).setStack (s.stack ++ [zext256 imm]) := by
  unfold push1Handler at h
  split at h
  · cases h
  · next hpush =>
    obtain ⟨hl, rfl⟩ := push_ok hpush
    cases h
    exact ⟨hl, rfl⟩

theorem push1Handler_error {imm : Byte} {s : State} {k : FaultKind} (h : push1Handler imm s = .error k) :
    stackDepth ≤ s.stack.length ∧ k = .stackOverflow := by
  unfold push1Handler at h
  split at h
  · next hpush => cases h; exact push_error hpush
  · cases h

/-- Every instruction is its handler, run past its opcode byte and settled at the state it began in. -/
theorem exec_eq (i : Instr) (s : State) : exec i s = .next (settle s (handlerOf i s.pastOpcode)) := by
  cases i <;> rfl

/-- The kinds that a handler can raise. -/
theorem handlerOf_error {i : Instr} {s : State} {k : FaultKind} (h : handlerOf i s = .error k) :
    k = .stackUnderflow ∨ k = .stackOverflow := by
  cases i with
  | stop => cases h
  | add => exact (binaryHandler_error h).imp And.left And.left
  | mul => exact (binaryHandler_error h).imp And.left And.left
  | push1 imm => exact .inr (push1Handler_error h).2

/-- What Exec does where it completes: the handler of the decoded instruction. -/
theorem execOpcode_ok {cfg : Config} {op : Byte} {s t : State} (h : execOpcode cfg op s = .ok t) :
    ∃ i rest, decodeOpcode cfg op (s.prog.drop s.pc) = .ok (i, rest) ∧ handlerOf i s = .ok t := by
  unfold execOpcode at h
  split at h
  · next i rest hd => exact ⟨i, rest, hd, h⟩
  · cases h

/-- Exec raises what decoding raises, or what the handler raises. -/
theorem execOpcode_error {cfg : Config} {op : Byte} {s : State} {k : FaultKind} (h : execOpcode cfg op s = .error k) :
    decodeOpcode cfg op (s.prog.drop s.pc) = .error k ∨
    ∃ i rest, decodeOpcode cfg op (s.prog.drop s.pc) = .ok (i, rest) ∧ handlerOf i s = .error k := by
  unfold execOpcode at h
  split at h
  · next i rest hd => exact .inr ⟨i, rest, hd, h⟩
  · next hd => cases h; exact .inl hd

/-- What Step can do: halt at the end, run the decoded instruction, or enter the fault that decoding raises. -/
theorem stepWith_cases {cfg : Config} {s t : State} (h : stepWith cfg s = .next t) :
    s.status = .running ∧
    ((s.prog.length ≤ s.pc ∧ t = s.setStatus .halted) ∨
     (∃ i rest, decode cfg (s.prog.drop s.pc) = .ok (i, rest) ∧ t = settle s (handlerOf i s.pastOpcode)) ∨
     (∃ k, decode cfg (s.prog.drop s.pc) = .error (.raises k) ∧ t = enterFault k s)) := by
  unfold stepWith at h
  cases hs : s.status with
  | running =>
    simp only [hs] at h
    unfold stepRunning at h
    refine ⟨rfl, ?_⟩
    split at h
    · next i rest hd =>
      rw [exec_eq] at h
      cases h
      exact .inr (.inl ⟨i, rest, hd, rfl⟩)
    · next hd =>
      cases h
      exact .inl ⟨by simpa using decode_end.1 hd, rfl⟩
    · next k hd =>
      cases h
      exact .inr (.inr ⟨k, hd, rfl⟩)
  | halted => simp only [hs] at h; cases h
  | faulted => simp only [hs] at h; cases h

/-- What Dispatch can do: enter the fault that Exec raises at the counter, or take what Exec answers, its pc written to the
register. -/
theorem dispatchWith_cases {cfg : Config} {op : Byte} {s t : State} (h : dispatchWith cfg op s = .next t) :
    s.status = .running ∧
    ((∃ k, execOpcode cfg op s = .error k ∧ t = enterFault k s) ∨ ∃ u, execOpcode cfg op s = .ok u ∧ t = fitPc cfg s u) := by
  unfold dispatchWith at h
  cases hs : s.status with
  | running =>
    simp only [hs] at h
    cases h
    refine ⟨rfl, ?_⟩
    cases execOpcode cfg op s with
    | error k => exact .inl ⟨k, rfl, fitPc_enterFault s cfg k⟩
    | ok u => exact .inr ⟨u, rfl, rfl⟩
  | halted => simp only [hs] at h; cases h
  | faulted => simp only [hs] at h; cases h

/-! ## Inductions, packaged once -/

/-- What every Step keeps holds after any number of Steps. -/
theorem runSteps_keeps {cfg : Config} {P : State → Prop} (hstep : ∀ s t, P s → stepWith cfg s = .next t → P t) (n : Nat) {s : State}
    (h : P s) : P (runSteps cfg n s) := by
  induction n generalizing s with
  | zero => exact h
  | succ n ih =>
    unfold runSteps
    split
    · next t ht => exact ih (hstep s t h ht)
    · exact h
    · exact h

/-- What every Step keeps, and every Dispatch among the calls of a session, holds after the session. -/
theorem callAll_keeps {cfg : Config} {P : State → Prop} (hstep : ∀ s t, P s → stepWith cfg s = .next t → P t)
    (calls : List HostCall) (hdispatch : ∀ op, .dispatch op ∈ calls → ∀ s t, P s → dispatchWith cfg op s = .next t → P t)
    {s : State} (h : P s) : P (callAll cfg s calls) := by
  have after : ∀ {s : State} {r}, P s → (∀ t, r = .next t → P t) → P (stateAfter s r) := by
    intro s r hs hr
    cases r with
    | next t => exact hr t rfl
    | fault f => exact hs
    | refused r => exact hs
  induction calls generalizing s with
  | nil => exact h
  | cons c calls ih =>
    refine ih (fun op hop => hdispatch op (.tail _ hop)) ?_
    cases c with
    | run => exact runSteps_keeps hstep _ h
    | step => exact after h fun t ht => hstep s t h ht
    | dispatch op => exact after h fun t ht => hdispatch op (.head _) s t h ht

end Sys2Proof.Machine
end

