-- ==== Sys2Proof/Laws/PerInstr.lean ====
section
/-! SUPPORT. Statements for all instructions, made per instruction: the length and the operand of an encoding (30_encoding.md R80,
R85, R90). -/

namespace Sys2Proof.Laws

/-- An instruction's operand fits its encoding, which has the length the instruction is said to have, 1 or 2 bytes, begins with
the instruction's opcode byte and ends with its operand, if it has one. -/
def EncodedForm.Statement (i : Instr) : Prop :=
  i.wf = true ∧ ∀ cfg : Config, (encode cfg i).length = i.length ∧ 1 ≤ i.length ∧ i.length ≤ 2 ∧
    (encode cfg i).head? = some (opcodeOf cfg i) ∧ ((encode cfg i).tail.map BitVec.toNat) = i.operand.toList

theorem EncodedForm.stop : EncodedForm.Statement .stop := ⟨rfl, fun _ => ⟨rfl, by decide, by decide, rfl, rfl⟩⟩
theorem EncodedForm.add : EncodedForm.Statement .add := ⟨rfl, fun _ => ⟨rfl, by decide, by decide, rfl, rfl⟩⟩
theorem EncodedForm.mul : EncodedForm.Statement .mul := ⟨rfl, fun _ => ⟨rfl, by decide, by decide, rfl, rfl⟩⟩
theorem EncodedForm.push1 (imm : Byte) : EncodedForm.Statement (.push1 imm) := by
  refine ⟨?_, fun cfg => ⟨rfl, one_le_two, le_rfl, rfl, rfl⟩⟩
  simp only [Instr.wf, operandFits, Instr.operand, decide_eq_true_eq]
  exact imm.isLt

end Sys2Proof.Laws
end

