-- ==== Sys2Proof/Tests/Slice0.lean ====
section
/-! SUPPORT. Tests: ill-formed terms, words written out from the spec's encodings, vectors of 95_test_vectors.md (named by their ids),
and for every statement with hypotheses a witness that meets them. -/

namespace Sys2Proof.Tests

open Sys2Proof Sys2Proof.Machine

/-- A small set of parameters: the default opcode values, MEM_CAP = 16 as in 95_test_vectors.md section 2.2. -/
def cfg (p : TruncPolicy) : Config where
  opcStop := 0x00
  opcAdd := 0x01
  opcMul := 0x02
  opcPush1 := 0x60
  progMaxLen := 6
  pcW := 3
  memAddrW := 4
  memCap := 16
  rangeMaxLen := 8
  truncPolicy := p

/-- A state in Running with a program, a pc and a stack. -/
def st (prog : List Byte) (pc : Nat) (S : List Word) : State :=
  { State.reset with prog := prog, pc := pc, stack := S }

/-- The greatest word. -/
def maxWord : Word := BitVec.allOnes 256

/-- `n` zero words. -/
def zeros (n : Nat) : List Word := List.replicate n 0

theorem zeros_length (n : Nat) : (zeros n).length = n := List.length_replicate

/-- The memory of vector M4: 1364 at 0 and 7777 at 5. -/
def memM4 : Memory := { cells := [(0, 1364), (5, 7777)], len := 6 }

/-! ## Ill-formed terms -/

theorem test_operand_256_is_ill_formed : operandFits (some 256) = false ∧ operandFits (some 255) = true := by decide
theorem test_operand_256_is_not_assembled : readLine "PUSH1 256".toList = .error .operandRange := by decide
theorem test_equal_opcodes_are_ill_formed : ¬ ({ cfg .fault with opcMul := 0x01 }).OpcodesDistinct := by decide
theorem test_narrow_pc_is_ill_formed : ¬ ({ cfg .fault with progMaxLen := 7 }).PcWide := by decide
theorem test_large_memory_is_ill_formed : ¬ ({ cfg .fault with memCap := 17 }).CapFits := by decide
theorem test_cfg_valid : (cfg .fault).Valid ∧ (cfg .zeroPad).Valid := by decide

/-! ## Words written out from 30_encoding.md sections 1 and 2 -/

theorem test_decode_stop : decode (cfg .fault) [0b00000000, 0xFE] = .ok (.stop, [0xFE]) := by decide
theorem test_decode_add : decode (cfg .fault) [0b00000001] = .ok (.add, []) := by decide
theorem test_decode_mul : decode (cfg .fault) [0b00000010] = .ok (.mul, []) := by decide
theorem test_decode_push1 : decode (cfg .fault) [0b01100000, 0b00101010] = .ok (.push1 42, []) := by decide
theorem test_decode_push2_is_illegal : decode (cfg .fault) [0x61, 0x00, 0x01] = .error (.raises .invalidOpcode) := by decide
theorem test_decode_other_values : decode { cfg .fault with opcAdd := 0x33 } [0x33] = .ok (.add, []) := by decide
theorem test_encode : encodeAll (cfg .fault) [.push1 6, .push1 7, .mul] = [0x60, 6, 0x60, 7, 0x02] := by decide
theorem test_placed_push1_runs :
    nextOf (step (State.reset.withFetchWord 16 0x2A60)) = some { st [0x60, 0x2A] 2 [42] with status := .running } := by decide
theorem test_label : label (cfg .fault) 0x60 = "PUSH1" := by decide

/-! ## Vectors of 95_test_vectors.md -/

theorem test_stop_C1 : nextOf (step (st [0x00] 0 [])) = some { st [0x00] 1 [] with status := .halted } := by decide
theorem test_implicit_halt_C4 : nextOf (step (st [0x60, 6] 2 [6])) = some { st [0x60, 6] 2 [6] with status := .halted } := by decide
theorem test_add_A4 : nextOf (step (st [0x01] 0 [maxWord, maxWord])) = some (st [0x01] 1 [maxWord - 1]) := by decide
theorem test_add_A7 : nextOf (step (st [0x01] 0 [9, 3, 4])) = some (st [0x01] 1 [9, 7]) := by decide
theorem test_mul_X6 : nextOf (step (st [0x02] 0 [maxWord, maxWord])) = some (st [0x02] 1 [1]) := by decide
theorem test_mul_X7 : nextOf (step (st [0x02] 0 [BitVec.ofNat 256 (2 ^ 128 + 1), BitVec.ofNat 256 (2 ^ 128 - 1)])) = some (st [0x02] 1 [maxWord]) := by decide
theorem test_push1_P3 : nextOf (step (st [0x60, 0xFF] 0 [])) = some (st [0x60, 0xFF] 2 [255]) := by decide
theorem test_push1_zero_pad_P7 : nextOf (stepWith (cfg .zeroPad) (st [0x60] 0 [])) = some (st [0x60] 2 [0]) := by decide
theorem test_invalid_opcode_C7 :
    nextOf (step (st [0xFF] 0 [7])) = some { st [0xFF] 0 [7] with status := .faulted, fault := some .invalidOpcode } := by decide
theorem test_dispatch_P9 : nextOf (dispatchWith (cfg .fault) 0x60 (st [0x05, 0x00] 0 [])) = some (st [0x05, 0x00] 1 [5]) := by decide
theorem test_dispatch_C9 :
    nextOf (dispatchWith (cfg .fault) 0x00 (st [] 3 [1, 2])) = some { st [] 3 [1, 2] with status := .halted } := by decide
theorem test_dispatch_P10 :
    nextOf (dispatchWith (cfg .fault) 0x60 (st [0x05] 1 [])) =
      some { st [0x05] 1 [] with status := .faulted, fault := some .truncatedImmediate } := by decide
theorem test_zero_pad_session_R132 :
    (callAll (cfg .zeroPad) (st [0x60] 0 []) [.step, .dispatch 0x60, .dispatch 0x60]) = st [0x60] 4 [0, 0, 0] := by decide
theorem test_pc_register_never_wraps_R32 :
    nextOf (dispatchWith (cfg .zeroPad) 0x60 (st [0x60] 7 [])) = some (st [0x60] 7 [0]) := by decide
theorem test_step_result_C1_C5_C6 :
    stepResult (cfg .fault) (st [0x00] 0 []) = .ok 0x00 .halted ∧
    stepResult (cfg .fault) { st [0x00] 1 [] with status := .halted } = .ended .halted ∧
    stepResult (cfg .fault) (st [0x0B] 0 []) = .fault .invalidOpcode := by decide
theorem test_stack_S3_S4 : pop [5, 9] = .ok (9, [5]) ∧ pop [] = .error .stackUnderflow := by decide
theorem test_memory_M4 : Memory.store (cfg .fault) { cells := [(0, 1364)], len := 1 } 5 7777 = .ok memM4 := by decide
theorem test_memory_M6 : memM4.loadRange (cfg .fault) 4 4 = .ok [0, 7777, 0, 0] := by decide
theorem test_memory_M9 : memM4.store (cfg .fault) 15 0 = .ok { memM4 with len := 16 } := by decide
theorem test_memory_M10_M11 :
    memM4.store (cfg .fault) 3 (2 ^ 256) = .error .invalidValue ∧ memM4.store (cfg .fault) 16 (2 ^ 256) = .error .invalidAccess := by
  decide
theorem test_mem_len_at_capacity : (Memory.empty.store (cfg .fault) 15 1).map (Memory.lenReg (cfg .fault)) = .ok 16 := by decide
theorem test_assembler : assemble (cfg .fault) "PUSH1 0xFF ; comment\nPUSH1 1\nADD".toList = .ok [0x60, 0xFF, 0x60, 1, 0x01] := by
  decide

/-! ## Witnesses: for each statement with hypotheses, terms that meet them, clause by clause and at the boundaries -/

theorem witness_EncodedInstructionDecodesBack : (cfg .fault).OpcodesDistinct ∧ Config.core.OpcodesDistinct := by decide

theorem witness_DecodedBytesAreTheEncoding :
    decode (cfg .fault) [0x60, 0xFF, 1] = .ok (.push1 0xFF, [1]) ∧ decode (cfg .zeroPad) [0x60] = .ok (.push1 0, []) := by decide

theorem witness_InstructionSequenceDecodesBack :
    (cfg .fault).OpcodesDistinct ∧ [Instr.push1 0, .add].length < 3 := by decide

theorem witness_ExactlyFourOpcodes :
    (0x60 : Byte) ∈ [(cfg .fault).opcStop, (cfg .fault).opcAdd, (cfg .fault).opcMul, (cfg .fault).opcPush1] ∧
    (0x61 : Byte) ∉ [(cfg .fault).opcStop, (cfg .fault).opcAdd, (cfg .fault).opcMul, (cfg .fault).opcPush1] := by decide

theorem witness_OpcodeTellsTheLength :
    (cfg .fault).OpcodesDistinct ∧ decode (cfg .fault) ([0x60, 0x00]) = .ok (.push1 0, []) ∧
    decode (cfg .fault) [0x02] = .ok (.mul, []) := by decide

theorem witness_ExecDispatchesByOpcode :
    (cfg .fault).OpcodesDistinct ∧ (st [5] 0 []).prog[0]? = some 5 ∧
    (0xFF : Byte) ∉ [(cfg .fault).opcStop, (cfg .fault).opcAdd, (cfg .fault).opcMul, (cfg .fault).opcPush1] ∧
    handlerOf .add (st [] 0 [1, 2]) = .ok (st [] 0 [3]) ∧ handlerOf .add (st [] 0 [1]) = .error .stackUnderflow := by decide

theorem witness_PushAppendsUpToCapacity : (zeros 1023).length + 1 ≤ 1024 ∧ 1024 < (zeros 1024).length + 1 := by
  simp [zeros_length]

theorem witness_StackLaws : (zeros 1023).length < 1024 ∧ (zeros 1024).length = 1024 := by simp [zeros_length]

/-- A full stack with two operands on top, and stacks too short for one. -/
theorem two_operand_stacks :
    (st [1] 0 (zeros 1022 ++ [1, 2])).stack = zeros 1022 ++ [1, 2] ∧ (st [1] 0 (zeros 1022 ++ [1, 2])).stack.length ≤ 1024 ∧
    (st [1] 0 [7]).stack.length < 2 ∧ (st [1] 0 []).stack.length < 2 := by simp [st, zeros_length]

theorem witness_FirstPopIsTheLeftOperand :
    (st [1] 0 (zeros 1022 ++ [1, 2])).stack = zeros 1022 ++ [1, 2] ∧ (st [1] 0 (zeros 1022 ++ [1, 2])).stack.length ≤ 1024 :=
  ⟨two_operand_stacks.1, two_operand_stacks.2.1⟩

theorem witness_AddGivesTheSum :
    (st [1] 0 (zeros 1022 ++ [1, 2])).stack = zeros 1022 ++ [1, 2] ∧ (st [1] 0 (zeros 1022 ++ [1, 2])).stack.length ≤ 1024 ∧
    (st [1] 0 [7]).stack.length < 2 := ⟨two_operand_stacks.1, two_operand_stacks.2.1, two_operand_stacks.2.2.1⟩

theorem witness_MulGivesTheProduct :
    (st [1] 0 (zeros 1022 ++ [1, 2])).stack = zeros 1022 ++ [1, 2] ∧ (st [1] 0 (zeros 1022 ++ [1, 2])).stack.length ≤ 1024 ∧
    (st [1] 0 [7]).stack.length < 2 := ⟨two_operand_stacks.1, two_operand_stacks.2.1, two_operand_stacks.2.2.1⟩

theorem witness_ShortStackUnderflows : (st [1] 0 [7]).stack.length < 2 ∧ (st [2] 0 []).stack.length < 2 := by decide

theorem witness_AddAndMulNeverOverflow :
    (st [1] 0 [7]).stack.length ≤ 1024 ∧ addHandler (st [1] 0 [7]) = .error .stackUnderflow ∧
    mulHandler (st [1] 0 [7]) = .error .stackUnderflow := by decide

theorem witness_Push1PushesTheByte : (st [0x60, 1] 0 (zeros 1023)).stack.length < 1024 := by simp [st, zeros_length]

theorem witness_ImmediateValueIsPushed :
    ([0x12, 0x34] : List Byte)[0 + 1]? = some 0x34 ∧ immBE [0x12, 0x34] 0 2 = 0x1234 ∧
    (cfg .fault).OpcodesDistinct ∧ (st [0x60, 0x34] 0 []).status = .running ∧
    (st [0x60, 0x34] 0 []).prog[(st [0x60, 0x34] 0 []).pc]? = some (cfg .fault).opcPush1 ∧
    (st [0x60, 0x34] 0 []).pc + 1 < (st [0x60, 0x34] 0 []).prog.length ∧ (st [0x60, 0x34] 0 []).stack.length < 1024 := by decide

theorem witness_FullStackOverflows : 1024 ≤ (st [0x60, 1] 0 (zeros 1024)).stack.length := by simp [st, zeros_length]

theorem witness_TruncatedImmediatePolicies :
    (∀ p, (cfg p).OpcodesDistinct ∧ (cfg p).truncPolicy = p) ∧ (∀ n, (st [0x60] 0 (zeros n)).status = .running ∧
      (st [0x60] 0 (zeros n)).prog[(st [0x60] 0 (zeros n)).pc]? = some (cfg .fault).opcPush1 ∧
      (cfg .zeroPad).opcPush1 = (cfg .fault).opcPush1 ∧
      (st [0x60] 0 (zeros n)).prog.length = (st [0x60] 0 (zeros n)).pc + 1) ∧
    (st [0x60] 0 (zeros 1023)).stack.length < 1024 ∧ 1024 ≤ (st [0x60] 0 (zeros 1024)).stack.length :=
  ⟨fun p => by cases p <;> decide, fun _ => ⟨rfl, rfl, rfl, rfl⟩, by simp [st, zeros_length], by simp [st, zeros_length]⟩

theorem witness_EndOfProgramHalts :
    (st [] 0 []).status = .running ∧ (st [] 0 []).prog.length ≤ (st [] 0 []).pc ∧
    (st [0x60] 2 [0]).status = .running ∧ (st [0x60] 2 [0]).prog.length ≤ (st [0x60] 2 [0]).pc := by decide

theorem witness_DecodeReadsOneByte :
    (st [1] 1 []).prog.length ≤ (st [1] 1 []).pc ∧ (st [1] 0 []).prog[(st [1] 0 []).pc]? = some 1 := by decide

theorem witness_StepRunsTheDecodedInstruction :
    (st [0x60, 7] 0 []).status = .running ∧
    decode Config.core ((st [0x60, 7] 0 []).prog.drop (st [0x60, 7] 0 []).pc) = .ok (.push1 7, []) ∧
    decode (cfg .zeroPad) ((st [1, 0x60] 1 []).prog.drop (st [1, 0x60] 1 []).pc) = .ok (.push1 0, []) := by decide

theorem witness_PlacedWordRunsNext : decodeTableWord 16 0xFF60 = some (.push1 0xFF) ∧ decodeTableWord 8 1 = some .add := by decide

theorem witness_StepIsDecodeThenExec : (st [0xFF] 0 []).status = .running := rfl

theorem witness_StepReportsItsOutcome :
    (∃ t, stepWith (cfg .fault) (st [0x60, 7] 0 []) = .next t) ∧
    (∃ t, stepWith (cfg .fault) (st [0x01] 0 []) = .next t ∧ t.status = .faulted) ∧
    (∃ t, dispatchWith (cfg .fault) 0x60 (st [7] 0 []) = .next t ∧ t.status = .running) ∧
    ∃ t, dispatchWith (cfg .fault) 0x60 (st [7] 1 []) = .next t ∧ t.status = .faulted :=
  ⟨⟨_, rfl⟩, ⟨_, rfl, rfl⟩, ⟨_, rfl, rfl⟩, _, rfl, rfl⟩

theorem witness_DispatchIsExecAtTheCounter :
    (st [5] 3 [1, 2]).status = .running ∧ (0x60 : Byte) = (cfg .zeroPad).opcPush1 ∧ (st [5] 3 [1, 2]).pc + 1 < 2 ^ (cfg .zeroPad).pcW := by
  decide

theorem witness_DispatchRunsAtTheCounter :
    (∀ p, (cfg p).OpcodesDistinct ∧ (cfg p).truncPolicy = p ∧ (cfg p).PcWide) ∧ (st [5] 0 [1, 2]).status = .running ∧
    (st [5] 0 [1, 2]).stack = [] ++ [1, 2] ∧ (st [5] 0 [1, 2]).stack.length ≤ 1024 ∧
    (st [5] 0 [1]).stack.length < 2 ∧
    (st [5] 0 [1, 2]).prog[(st [5] 0 [1, 2]).pc]? = some 5 ∧ (st [5] 0 [1, 2]).pc < (st [5] 0 [1, 2]).prog.length ∧
    (st [5] 0 [1, 2]).prog.length ≤ (cfg .fault).progMaxLen ∧
    (st [5] 0 (zeros 1023)).stack.length < 1024 ∧ 1024 ≤ (st [5] 0 (zeros 1024)).stack.length ∧
    (st [5] 1 [1]).prog.length ≤ (st [5] 1 [1]).pc ∧ (st [5] 1 [1]).pc = (st [5] 1 [1]).prog.length ∧
    ((st [5] 2 [1]).prog.length < (st [5] 2 [1]).pc ∧ (st [5] 2 [1]).pc + 1 < 2 ^ (cfg .zeroPad).pcW) ∧
    ((st [5] 7 [1]).prog.length < (st [5] 7 [1]).pc ∧ (st [5] 7 [1]).pc + 1 = 2 ^ (cfg .zeroPad).pcW) ∧
    (3 : Byte) ∉ [(cfg .fault).opcStop, (cfg .fault).opcAdd, (cfg .fault).opcMul, (cfg .fault).opcPush1] :=
  ⟨fun p => by cases p <;> decide, rfl, rfl, by decide, by decide, rfl, by decide, by decide, by simp [st, zeros_length],
    by simp [st, zeros_length], by decide, rfl, by decide, by decide, by decide⟩

theorem witness_PcAdvanceOfAStep :
    (cfg .fault).OpcodesDistinct ∧ (∃ t, stepWith (cfg .fault) (st [0x60, 7] 0 []) = .next t ∧ t.pc = 2) ∧
    (∃ t, stepWith (cfg .fault) (st [0x00] 0 []) = .next t ∧ t.pc = 1) ∧
    (∃ t, stepWith (cfg .fault) (st [] 0 []) = .next t ∧ t.pc = 0) ∧
    ∃ t, stepWith (cfg .fault) (st [0x01] 0 []) = .next t ∧ t.status = .faulted ∧ t.pc = 0 :=
  ⟨by decide, ⟨_, rfl, rfl⟩, ⟨_, rfl, rfl⟩, ⟨_, rfl, rfl⟩, _, rfl, rfl, rfl⟩

theorem witness_PcNeverDecreases :
    (∃ t, exec .add (st [1] 0 [1, 2]) = .next t) ∧ (∃ t, stepWith (cfg .fault) (st [1] 0 [1, 2]) = .next t) ∧
    ∃ t, dispatchWith (cfg .fault) 0x60 (st [1] 0 [1, 2]) = .next t ∧ t.pc = 1 := ⟨⟨_, rfl⟩, ⟨_, rfl⟩, _, rfl, rfl⟩

theorem witness_EndedRunHasNoTransition :
    ({ st [1] 0 [] with status := .halted }).status = .halted ∧
    ({ st [1] 0 [] with status := .faulted, fault := some .stackUnderflow }).status = .faulted := by decide

theorem witness_RunEndsWithinItsBound : (st [1, 2] 0 []).prog.length + 1 ≤ 3 := by decide

/-- A program that is constructed, and one that is refused. -/
theorem constructed_programs :
    construct (cfg .fault) [0x60, 1, 0x01] = .ok (st [0x60, 1, 0x01] 0 []) ∧
    construct (cfg .fault) [0, 0, 0, 0, 0, 0] = .ok (st [0, 0, 0, 0, 0, 0] 0 []) ∧
    construct (cfg .fault) [0, 0, 0, 0, 0, 0, 0] = .error .programTooLong := by decide

theorem witness_RunEndsHaltedOrFaulted : construct (cfg .fault) [0x60, 1, 0x01] = .ok (st [0x60, 1, 0x01] 0 []) :=
  constructed_programs.1

theorem witness_HaltedFlagAfterAStep :
    (∃ t, stepWith (cfg .fault) (st [0x00] 0 []) = .next t ∧ t.haltedFlag = true) ∧
    ∃ t, stepWith (cfg .fault) (st [0xFF] 0 []) = .next t ∧ t.haltedFlag = false := ⟨⟨_, rfl, rfl⟩, _, rfl, rfl⟩

theorem witness_FaultEntryIsPrecise :
    (∃ t, stepWith (cfg .fault) (st [0xFF] 0 [7]) = .next t ∧ t.status = .faulted) ∧
    ∃ t, dispatchWith (cfg .fault) 0x01 (st [0xFF] 0 [7]) = .next t ∧ t.status = .faulted := ⟨⟨_, rfl, rfl⟩, _, rfl, rfl⟩

theorem witness_InvalidOpcodeLeavesStackAndMemory :
    (st [0x0B] 0 [7]).status = .running ∧ (st [0x0B] 0 [7]).prog[(st [0x0B] 0 [7]).pc]? = some 0x0B ∧
    (0x0B : Byte) ∉ [(cfg .fault).opcStop, (cfg .fault).opcAdd, (cfg .fault).opcMul, (cfg .fault).opcPush1] := by decide

theorem witness_ResetLeavesStackAndMemoryEmpty :
    State.reset = State.reset ∧ construct (cfg .fault) [0x60, 1, 0x01] = .ok (st [0x60, 1, 0x01] 0 []) :=
  ⟨rfl, constructed_programs.1⟩

theorem witness_ConstructSetsEveryElement :
    ([0, 0, 0, 0, 0, 0] : List Byte).length ≤ (cfg .fault).progMaxLen ∧
    (cfg .fault).progMaxLen < ([0, 0, 0, 0, 0, 0, 0] : List Byte).length := by decide

theorem witness_ResetMeetsTheInvariants : construct (cfg .fault) [0, 0, 0, 0, 0, 0] = .ok (st [0, 0, 0, 0, 0, 0] 0 []) :=
  constructed_programs.2.1

/-- A legal state in Running whose pc is in range, for any parameters that admit its program. -/
theorem st_inv {c : Config} {prog : List Byte} {pc : Nat} {S : List Word} (hp : prog.length ≤ c.progMaxLen)
    (hS : S.length ≤ stackDepth) (hpc : pc ≤ pcLimit c prog.length) : Inv c (st prog pc S) :=
  ⟨⟨hS, by simp [st, State.reset], by simp [st, State.reset], empty_wf, Nat.zero_le _, hp⟩, hpc⟩

theorem witness_EveryStepKeepsTheInvariants :
    Inv Config.core (st [] 0 []) ∧ ∃ t, step (st [] 0 []) = .next t :=
  ⟨st_inv (Nat.zero_le _) (by decide) (Nat.zero_le _), _, rfl⟩

theorem witness_EveryCallKeepsTheInvariants :
    (Inv (cfg .zeroPad) (st [0x60] 0 []) ∧ ∃ t, stepWith (cfg .zeroPad) (st [0x60] 0 []) = .next t ∧ t.pc = 2) ∧
    (Inv (cfg .fault) (st [0x60] 0 []) ∧ ∃ t, dispatchWith (cfg .fault) 0x60 (st [0x60] 0 []) = .next t ∧ t.pc = 1) ∧
    (Inv (cfg .zeroPad) (st [0x60] 1 []) ∧ ∃ t, dispatchWith (cfg .zeroPad) 0x60 (st [0x60] 1 []) = .next t ∧ t.pc = 2) ∧
    (Inv (cfg .zeroPad) (st [0x60] 2 [1, 2]) ∧ ∃ t, dispatchWith (cfg .zeroPad) 0x01 (st [0x60] 2 [1, 2]) = .next t ∧ t.pc = 2) ∧
    construct (cfg .fault) [0x60, 1, 0x01] = .ok (st [0x60, 1, 0x01] 0 []) ∧
    HostCall.dispatch (cfg .zeroPad).opcPush1 ∉ [HostCall.step, .dispatch 0x01, .run] :=
  ⟨⟨st_inv (by decide) (by decide) (by decide), _, rfl, rfl⟩, ⟨st_inv (by decide) (by decide) (by decide), _, rfl, rfl⟩,
    ⟨st_inv (by decide) (by decide) (by decide), _, rfl, rfl⟩, ⟨st_inv (by decide) (by decide) (by decide), _, rfl, rfl⟩,
    constructed_programs.1, by decide⟩

theorem witness_PcFitsItsRegister :
    (cfg .zeroPad).Valid ∧ Inv (cfg .zeroPad) (st [0, 0, 0, 0, 0, 0x60] 7 []) ∧
    (st [0, 0, 0, 0, 0, 0x60] 7 []).pc < 2 ^ (cfg .zeroPad).pcW ∧
    (st [0, 0, 0, 0, 0, 0x60] 7 []).prog.length ≤ (cfg .zeroPad).progMaxLen ∧
    (∃ t, dispatchWith (cfg .zeroPad) 0x60 (st [0, 0, 0, 0, 0, 0x60] 7 []) = .next t) ∧
    construct (cfg .zeroPad) [0, 0, 0, 0, 0, 0x60] = .ok (st [0, 0, 0, 0, 0, 0x60] 0 []) :=
  ⟨by decide, st_inv (by decide) (by decide) (by decide), by decide, by decide, ⟨_, rfl⟩, by decide⟩

theorem witness_ProgramBufferIsNeverWritten :
    (∃ t, exec .mul (st [2] 0 [1, 2]) = .next t) ∧ (∃ t, stepWith (cfg .fault) (st [2] 0 [1, 2]) = .next t) ∧
    (∃ t, dispatchWith (cfg .fault) 2 (st [2] 0 [1, 2]) = .next t) ∧
    construct (cfg .fault) [0x60, 1, 0x01] = .ok (st [0x60, 1, 0x01] 0 []) :=
  ⟨⟨_, rfl⟩, ⟨_, rfl⟩, ⟨_, rfl⟩, constructed_programs.1⟩

theorem witness_MemoryIsNeverTouched :
    (∃ t, stepWith (cfg .fault) { st [2] 0 [1, 2] with mem := memM4 } = .next t) ∧
    (∃ t, dispatchWith (cfg .fault) 2 { st [2] 0 [1, 2] with mem := memM4 } = .next t) ∧
    construct (cfg .fault) [0x60, 1, 0x01] = .ok (st [0x60, 1, 0x01] 0 []) := ⟨⟨_, rfl⟩, ⟨_, rfl⟩, constructed_programs.1⟩

theorem witness_MemoryHasNoInfluence :
    (∃ t, stepWith (cfg .fault) (st [2] 0 [1, 2]) = .next t) ∧
    stepWith (cfg .fault) { st [2] 0 [1, 2] with status := .halted } = .fault .runHalted := ⟨⟨_, rfl⟩, rfl⟩

theorem witness_OnlyTheFetchedBytesMatter :
    ([1, 0x60, 5, 9] : List Byte)[(st [0, 0x60, 5] 1 []).pc]? = (st [0, 0x60, 5] 1 []).prog[(st [0, 0x60, 5] 1 []).pc]? ∧
    ([1, 0x60, 5, 9] : List Byte)[(st [0, 0x60, 5] 1 []).pc + 1]? = (st [0, 0x60, 5] 1 []).prog[(st [0, 0x60, 5] 1 []).pc + 1]? ∧
    ∃ t, stepWith (cfg .fault) (st [0, 0x60, 5] 1 []) = .next t := ⟨rfl, rfl, _, rfl⟩

theorem witness_StopFrame : ∃ t, exec .stop (st [0] 0 [7]) = .next t := ⟨_, rfl⟩

theorem witness_AddAndMulFrame :
    (∃ t, exec .add (st [1] 0 [9, 3, 4]) = .next t ∧ t.status = .running) ∧
    (∃ t, exec .mul (st [2] 0 [3]) = .next t ∧ t.status = .faulted) := ⟨⟨_, rfl, rfl⟩, _, rfl, rfl⟩

theorem witness_Push1Frame :
    (∃ t, exec (.push1 5) (st [0x60, 5] 0 [7]) = .next t ∧ t.status = .running) ∧
    ∃ t, exec (.push1 5) (st [0x60, 5] 0 (zeros 1024)) = .next t := ⟨⟨_, rfl, rfl⟩, _, rfl⟩

theorem witness_StoreOutcome :
    (cfg .fault).memCap ≤ 16 ∧ 15 < (cfg .fault).memCap ∧ 2 ^ 256 ≤ 2 ^ 256 ∧ 2 ^ 256 - 1 < 2 ^ 256 := by decide

theorem witness_StoreGrowsExactly :
    memM4.store (cfg .fault) 15 0 = .ok { memM4 with len := 16 } ∧
    memM4.store (cfg .fault) 2 9 = .ok { cells := [(0, 1364), (2, 9), (5, 7777)], len := 6 } := by decide

theorem witness_LoadAfterStore :
    memM4.wf ∧ memM4.store (cfg .fault) 5 0 = .ok { cells := [(0, 1364)], len := 6 } := by decide

theorem witness_LoadNeverFails : 5 < memM4.size ∧ memM4.size ≤ 6 ∧ memM4.size ≤ 1000 := by decide

theorem witness_MemoryInvariants :
    (∀ v, (1, v) ∈ [(0, 1364), (5, 7777)] → ¬ (1 < (cfg .fault).memCap ∧ v < 2 ^ 256)) ∧
    (∀ o v, (o, v) ∈ [(16, 1)] → ¬ (o < (cfg .fault).memCap ∧ v < 2 ^ 256)) ∧
    ((5, 7777) ∈ [(0, 1364), (5, 7777)] ∧ 5 < (cfg .fault).memCap ∧ 7777 < 2 ^ 256) ∧
    (Memory.empty.storeAll (cfg .fault) [(0, 1364), (5, 7777)]).size ≠ 0 := by
  refine ⟨fun v h => by simp at h, fun o v h => ?_, by decide, by decide⟩
  simp only [List.mem_singleton, Prod.mk.injEq] at h
  simp [h.1, cfg]

theorem witness_LoadReturnsTheLastStore :
    Memory.empty.wf ∧ 5 < (cfg .fault).memCap ∧ 7777 < 2 ^ 256 ∧ ∀ v', (5, v') ∈ [(5, 2 ^ 256), (0, 1)] → 2 ^ 256 ≤ v' := by
  refine ⟨empty_wf, by decide, by decide, fun v' h => ?_⟩
  simp only [List.mem_cons, Prod.mk.injEq, List.not_mem_nil, or_false] at h
  omega

theorem witness_MemLenFitsItsRegister :
    (cfg .fault).Valid ∧ memM4.Fits (cfg .fault) ∧ memM4.store (cfg .fault) 15 0 = .ok { memM4 with len := 16 } ∧
    ({ memM4 with len := 16 } : Memory).size ≤ (cfg .fault).memCap := by decide

theorem witness_RangeLoadIsLoads : 8 ≤ (cfg .fault).rangeMaxLen ∧ (cfg .fault).rangeMaxLen < 9 := by decide

theorem witness_ReadOutDeterminesTheState :
    ({ st [0] 0 [1] with mem := memM4 }).mem.wf ∧ ({ st [0] 0 [1] with mem := memM4 }).readOut.cells = [1364, 0, 0, 0, 0, 7777] ∧
    ({ st [0] 0 [1] with mem := memM4 }).readOut = ({ st [0] 0 [1] with mem := memM4 }).readOut := by decide

theorem witness_AssemblerGivesTheEncoding :
    (∀ l ∈ [SourceLine.mk (some (.push1 255)) .decimal (some ['x']), SourceLine.mk none .hex (some []), SourceLine.mk (some .add) .hex none],
      ∀ c, l.comment = some c → '\n' ∉ c) ∧
    numberValue ['2', '5', '6'] = some 256 ∧ numberValue ['0', 'x', '1', '0', '0'] = some 256 ∧ 255 < 256 := by
  refine ⟨fun l hl c hc => ?_, by decide, by decide, by decide⟩
  simp only [List.mem_cons, List.not_mem_nil, or_false] at hl
  rcases hl with rfl | rfl | rfl <;> cases hc <;> decide

end Sys2Proof.Tests
end

/-! PROOFS. The family 10_state.md: the stack port (R24 to R26) and the reset values of stack and memory (R28, R39). -/

namespace Sys2Proof.Machine

/-! ## The stack port, one push after another -/

/-- R26: a sequence of pushes that fits leaves its words on top of the stack, in push order. -/
theorem pushAll_of_room {ws S : List Word} (h : S.length + ws.length ≤ stackDepth) : pushAll ws S = .ok (S ++ ws) := by
  induction ws generalizing S with
  | nil => simp [pushAll]
  | cons w ws ih =>
    rw [List.length_cons] at h
    have hpush : push w S = .ok (S ++ [w]) := push_of_room w (by omega)
    have hrest : pushAll ws (S ++ [w]) = .ok (S ++ [w] ++ ws) := ih (by simp; omega)
    simp [pushAll, hpush, hrest]

/-- Settles O10: the 1024 pushes succeed by induction over the words pushed, for any stack with room for them. -/
theorem stackLaws : Obligations.StackLaws := by
  refine ⟨fun w S hS => ⟨S ++ [w], push_of_room w hS, pop_append S w⟩, fun ws hws => ⟨?_, fun w => ?_⟩, pop_nil⟩
  · exact pushAll_of_room (S := []) (by simp [hws])
  · exact push_of_full w hws.ge

/-- Settles O8, by the two answers of Push: with room, and on a full stack. -/
theorem pushAppendsUpToCapacity : Obligations.PushAppendsUpToCapacity :=
  fun w _ => ⟨push_of_room w, fun hfull => push_of_full w (Nat.le_of_lt_succ hfull)⟩

/-- Settles O9, by the two answers of Pop: below a top word, and on the empty stack. -/
theorem popRemovesTheTop : Obligations.PopRemovesTheTop :=
  ⟨fun w S => pop_append S w, pop_nil⟩

/-! ## The state that Construct builds -/

/-- What Construct can do: build the reset state with the program placed, if the program fits (70_reset_and_hazards.md R170, R171). -/
theorem construct_ok {cfg : Config} {P : List Byte} {s : State} (h : construct cfg P = .ok s) :
    P.length ≤ cfg.progMaxLen ∧ s = { State.reset with prog := P } := by
  unfold construct at h
  split at h
  · next hP => cases h; exact ⟨hP, rfl⟩
  · cases h

/-- Every cell of the memory as created reads as zero, since none is materialized (R39, R57). -/
@[simp] theorem load_empty (o : Nat) : Memory.empty.load o = 0 := if_neg (Nat.not_lt_zero o)

/-- Settles O37: a constructed core differs from the reset state in its program only, so both have the empty stack and memory. -/
theorem resetLeavesStackAndMemoryEmpty : Obligations.ResetLeavesStackAndMemoryEmpty := by
  intro s hs
  have hempty : s.stack = [] ∧ s.mem = Memory.empty := by
    rcases hs with rfl | ⟨cfg, P, hc⟩
    · exact ⟨rfl, rfl⟩
    · obtain ⟨-, rfl⟩ := construct_ok hc
      exact ⟨rfl, rfl⟩
  obtain ⟨hstack, hmem⟩ := hempty
  rw [hstack, hmem]
  exact ⟨rfl, rfl, load_empty, rfl⟩

end Sys2Proof.Machine

/-! PROOFS. The family 20_memory.md: the program buffer (R68), one store and one load (R56, R57), sequences of stores (R54). -/

namespace Sys2Proof.Machine

/-! ## The program buffer is never written -/

/-- No handler writes the program buffer. -/
theorem handlerOf_prog {i : Instr} {s t : State} (h : handlerOf i s = .ok t) : t.prog = s.prog := by
  cases i with
  | stop => cases h; rfl
  | add => obtain ⟨R, a, b, -, -, rfl⟩ := binaryHandler_ok h; rfl
  | mul => obtain ⟨R, a, b, -, -, rfl⟩ := binaryHandler_ok h; rfl
  | push1 imm => obtain ⟨-, rfl⟩ := push1Handler_ok h; rfl

/-- An instruction's transaction keeps the program buffer, whether its handler completes or its fault is entered. -/
theorem settle_handlerOf_prog (i : Instr) (s : State) : (settle s (handlerOf i s.pastOpcode)).prog = s.prog := by
  cases h : handlerOf i s.pastOpcode with
  | ok t => rw [settle_ok, handlerOf_prog h, State.pastOpcode_prog]
  | error k => rfl

theorem exec_prog {i : Instr} {s t : State} (h : exec i s = .next t) : t.prog = s.prog := by
  rw [exec_eq] at h
  cases h
  exact settle_handlerOf_prog i s

theorem stepWith_prog {cfg : Config} {s t : State} (h : stepWith cfg s = .next t) : t.prog = s.prog := by
  obtain ⟨-, ⟨-, rfl⟩ | ⟨i, rest, -, rfl⟩ | ⟨k, -, rfl⟩⟩ := stepWith_cases h
  · rfl
  · exact settle_handlerOf_prog i s
  · rfl

theorem dispatchWith_prog {cfg : Config} {op : Byte} {s t : State} (h : dispatchWith cfg op s = .next t) : t.prog = s.prog := by
  obtain ⟨-, ⟨k, -, rfl⟩ | ⟨u, hu, rfl⟩⟩ := dispatchWith_cases h
  · rfl
  · obtain ⟨i, rest, -, hi⟩ := execOpcode_ok hu
    rw [fitPc_prog, handlerOf_prog hi]

theorem runSteps_prog (cfg : Config) (n : Nat) (s : State) : (runSteps cfg n s).prog = s.prog :=
  runSteps_keeps (P := fun t => t.prog = s.prog) (fun _ _ hu ht => (stepWith_prog ht).trans hu) n rfl

/-- Settles O43: the handlers keep the program buffer, so Step and Dispatch do, and so does every run, by `runSteps_keeps`. -/
theorem programBufferIsNeverWritten : Obligations.ProgramBufferIsNeverWritten := by
  refine ⟨fun _ _ _ => exec_prog, fun _ _ _ _ h => h.elim stepWith_prog dispatchWith_prog, fun cfg P s n hs => ?_⟩
  obtain ⟨-, rfl⟩ := construct_ok hs
  exact runSteps_prog cfg n _

/-! ## One load and one store -/

theorem load_of_lt_size {m : Memory} {o : Nat} (h : o < m.size) : m.load o = readCells m.cells o := if_pos h

theorem load_of_size_le {m : Memory} {o : Nat} (h : m.size ≤ o) : m.load o = 0 := if_neg (Nat.not_lt.2 h)

/-- Settles O53, by the two branches of a load. -/
theorem loadNeverFails : Obligations.LoadNeverFails := fun _ _ => ⟨load_of_lt_size, load_of_size_le⟩

/-- A store within the bounds of R55 succeeds. -/
theorem store_succeeds {cfg : Config} {o v : Nat} (m : Memory) (ho : o < cfg.memCap) (hv : v < 2 ^ 256) :
    ∃ m', m.store cfg o v = .ok m' := by
  simp only [Memory.store, if_pos ho, if_pos hv]
  split
  · exact ⟨_, rfl⟩
  · exact ⟨_, rfl⟩

theorem size_store {cfg : Config} {m m' : Memory} {o v : Nat} (h : m.store cfg o v = .ok m') : m'.size = max m.size (o + 1) := by
  obtain ⟨-, -, hlen, -⟩ := store_ok h
  exact hlen

/-- Settles O51: both branches of a successful store leave the greater length. -/
theorem storeGrowsExactly : Obligations.StoreGrowsExactly := fun _ _ _ _ _ => size_store

/-! ## Reading after a store, in canonical form -/

theorem readCells_of_not_listed {cells : List Cell} {o : Nat} (h : ∀ c ∈ cells, c.1 ≠ o) : readCells cells o = 0 := by
  induction cells with
  | nil => rfl
  | cons d rest ih =>
    rw [readCells, if_neg (h d (.head _))]
    exact ih fun c hc => h c (.tail _ hc)

/-- A memory of canonical form lists no cell at or beyond its length, so its cells alone tell what a load gives. -/
theorem load_eq_readCells {m : Memory} (hm : m.wf) (o : Nat) : m.load o = readCells m.cells o := by
  by_cases ho : o < m.size
  · exact load_of_lt_size ho
  · have hnone : ∀ c ∈ m.cells, c.1 ≠ o := fun c hc hco => ho (hco ▸ (hm.2 c hc).2)
    rw [load_of_size_le (Nat.not_lt.1 ho), readCells_of_not_listed hnone]

/-- In a memory of canonical form the zero fill clears nothing, so a store only writes its cell. -/
theorem cells_store {cfg : Config} {m m' : Memory} {o v : Nat} (hm : m.wf) (h : m.store cfg o v = .ok m') :
    m'.cells = writeCells o (BitVec.ofNat 256 v) m.cells := by
  obtain ⟨-, -, -, hcells⟩ := store_ok h
  rw [hcells, zeroFill_of_wf hm, ite_self]

theorem load_store {cfg : Config} {m m' : Memory} {o v : Nat} (hm : m.wf) (h : m.store cfg o v = .ok m') (a : Nat) :
    m'.load a = if a = o then BitVec.ofNat 256 v else m.load a := by
  rw [load_eq_readCells (store_wf hm h), cells_store hm h, readCells_writeCells o a _ hm.1, load_eq_readCells hm]

/-! ## Sequences of stores -/

theorem storeAll_cons_ok {cfg : Config} {m m' : Memory} {o v : Nat} (h : m.store cfg o v = .ok m') (ops : List (Nat × Nat)) :
    m.storeAll cfg ((o, v) :: ops) = m'.storeAll cfg ops := by
  simp only [Memory.storeAll, h]

theorem storeAll_cons_error {cfg : Config} {m : Memory} {o v : Nat} {k : FaultKind} (h : m.store cfg o v = .error k)
    (ops : List (Nat × Nat)) : m.storeAll cfg ((o, v) :: ops) = m.storeAll cfg ops := by
  simp only [Memory.storeAll, h]

theorem storeAll_append (cfg : Config) (m : Memory) (earlier later : List (Nat × Nat)) :
    m.storeAll cfg (earlier ++ later) = (m.storeAll cfg earlier).storeAll cfg later := by
  induction earlier generalizing m with
  | nil => rfl
  | cons p rest ih =>
    rw [List.cons_append]
    cases h : m.store cfg p.1 p.2 with
    | ok m' => rw [storeAll_cons_ok h, storeAll_cons_ok h, ih]
    | error k => rw [storeAll_cons_error h, storeAll_cons_error h, ih]

/-- What every successful store of a sequence keeps holds after the sequence. -/
theorem storeAll_keeps {cfg : Config} {P : Memory → Prop} {ops : List (Nat × Nat)}
    (hstore : ∀ o v, (o, v) ∈ ops → ∀ m m' : Memory, P m → m.store cfg o v = .ok m' → P m') {m : Memory} (hm : P m) :
    P (m.storeAll cfg ops) := by
  induction ops generalizing m with
  | nil => exact hm
  | cons p rest ih =>
    have hrest := fun o v hmem => hstore o v (.tail p hmem)
    cases h : m.store cfg p.1 p.2 with
    | ok m' => rw [storeAll_cons_ok h]; exact ih hrest (hstore p.1 p.2 (.head _) m m' hm h)
    | error k => rw [storeAll_cons_error h]; exact ih hrest hm

/-- Some store of `ops` within the bounds of R55 names the offset `o`. -/
def StoredIn (cfg : Config) (ops : List (Nat × Nat)) (o : Nat) : Prop :=
  ∃ v, (o, v) ∈ ops ∧ o < cfg.memCap ∧ v < 2 ^ 256

theorem storedIn_of_store_ok {cfg : Config} {ops : List (Nat × Nat)} {m m' : Memory} {o v : Nat} (hmem : (o, v) ∈ ops)
    (h : m.store cfg o v = .ok m') : StoredIn cfg ops o := by
  obtain ⟨ho, hv, -, -⟩ := store_ok h
  exact ⟨v, hmem, ho, hv⟩

/-- R54 (a): no sequence of stores lowers the length. -/
theorem size_le_size_storeAll (cfg : Config) (m : Memory) (ops : List (Nat × Nat)) : m.size ≤ (m.storeAll cfg ops).size := by
  refine storeAll_keeps (P := fun m' => m.size ≤ m'.size) (fun o v _ m₁ m₂ hle h => ?_) le_rfl
  rw [size_store h]
  exact le_max_of_le_left hle

/-- R54 (c): what an offset loads changes only by a successful store to it. -/
theorem load_storeAll_of_not_storedIn {cfg : Config} {m : Memory} {ops : List (Nat × Nat)} {o : Nat} (hm : m.wf)
    (ho : ¬ StoredIn cfg ops o) : (m.storeAll cfg ops).load o = m.load o := by
  refine (storeAll_keeps (P := fun m' => m'.wf ∧ m'.load o = m.load o) (fun a v hmem m₁ m₂ hP h => ?_) ⟨hm, rfl⟩).2
  obtain ⟨hwf, hload⟩ := hP
  have hne : o ≠ a := fun hoa => ho (hoa ▸ storedIn_of_store_ok hmem h)
  exact ⟨store_wf hwf h, by rw [load_store hwf h, if_neg hne, hload]⟩

/-- R54 (d), from below: after a successful store the length covers its offset for good. -/
theorem lt_size_storeAll {cfg : Config} {ops : List (Nat × Nat)} {o : Nat} (m : Memory) (ho : StoredIn cfg ops o) :
    o < (m.storeAll cfg ops).size := by
  obtain ⟨v, hmem, hcap, hv⟩ := ho
  obtain ⟨earlier, later, rfl⟩ := List.append_of_mem hmem
  obtain ⟨m', hm'⟩ := store_succeeds (m.storeAll cfg earlier) hcap hv
  rw [storeAll_append, storeAll_cons_ok hm']
  calc o < m'.size := by rw [size_store hm']; exact lt_max_of_lt_right (Nat.lt_succ_self o)
    _ ≤ (m'.storeAll cfg later).size := size_le_size_storeAll cfg m' later

/-- R54 (d), from above: the length is what it was before the stores, or one more than the offset of a successful one. -/
theorem size_storeAll_cases (cfg : Config) (m : Memory) (ops : List (Nat × Nat)) :
    (m.storeAll cfg ops).size = m.size ∨ ∃ o, StoredIn cfg ops o ∧ (m.storeAll cfg ops).size = o + 1 := by
  refine storeAll_keeps (P := fun m' => m'.size = m.size ∨ ∃ o, StoredIn cfg ops o ∧ m'.size = o + 1)
    (fun o v hmem m₁ m₂ hP h => ?_) (.inl rfl)
  rcases max_choice m₁.size (o + 1) with hmax | hmax
  · rw [size_store h, hmax]
    exact hP
  · exact .inr ⟨o, storedIn_of_store_ok hmem h, (size_store h).trans hmax⟩

/-- Settles O54: each clause is the lemma of R54's letter, at the empty memory, whose length is 0 and whose cells load zero. -/
theorem memoryInvariants : Obligations.MemoryInvariants := by
  refine ⟨size_le_size_storeAll, fun _ _ => load_of_size_le, fun cfg ops => ⟨fun o ho => ?_, fun hnone => ?_, ?_, fun hne => ?_⟩⟩
  · rw [load_storeAll_of_not_storedIn empty_wf fun ⟨v, hmem, hb⟩ => ho v hmem hb, load_empty]
  · exact (size_storeAll_cases cfg Memory.empty ops).resolve_right fun ⟨o, ⟨v, hmem, hb⟩, _⟩ => hnone o v hmem hb
  · exact fun o v hmem ho hv => lt_size_storeAll Memory.empty ⟨v, hmem, ho, hv⟩
  · obtain ⟨o, ⟨v, hmem, ho, hv⟩, hsize⟩ := (size_storeAll_cases cfg Memory.empty ops).resolve_left hne
    exact ⟨o, v, hmem, ho, hv, hsize⟩

end Sys2Proof.Machine

/-! PROOFS. The family 30_encoding.md: the immediate of PUSH1 (R83). -/

namespace Sys2Proof.Machine

/-- Widening with zeros is reading the byte as an unsigned integer (R83). -/
theorem zext256_eq_ofNat (b : Byte) : zext256 b = BitVec.ofNat 256 b.toNat := (BitVec.ofNat_toNat 256 b).symm

/-- With room on the stack the handler of PUSH1 completes: one byte consumed, one word pushed (R130). -/
theorem push1Handler_of_room {s : State} (imm : Byte) (h : s.stack.length + 1 ≤ stackDepth) :
    push1Handler imm s = .ok ((s.setPc (s.pc + 1)).setStack (s.stack ++ [zext256 imm])) := by
  rw [push1Handler, push_of_room (zext256 imm) h]

/-- Settles O16: past the opcode byte the handler completes, so the transaction is its answer: the pc moved once by each, and the
byte widened with zeros on top. -/
theorem push1PushesTheByte : Obligations.Push1PushesTheByte := by
  intro imm s hroom
  have hhandler := push1Handler_of_room (s := s.pastOpcode) imm hroom
  calc exec (.push1 imm) s = .next (settle s (push1Handler imm s.pastOpcode)) := exec_eq (.push1 imm) s
    _ = .next { s with pc := s.pc + 2, stack := s.stack ++ [zext256 imm] } := by rw [hhandler]; rfl
    _ = .next { s with pc := s.pc + 2, stack := s.stack ++ [BitVec.ofNat 256 imm.toNat] } := by rw [zext256_eq_ofNat]

end Sys2Proof.Machine

/-! PROOFS. The family 40_control.md: which bytes decode (R113), dispatch by opcode value (R103), the counter (R110), Decode (R101)
and the implicit halt (R105). -/

namespace Sys2Proof

/-! ## The four opcode values -/

/-- Decoding an opcode byte raises InvalidOpcode exactly if it is none of the four values, whatever follows it (R86, R113). -/
theorem decodeOpcode_invalid_iff {cfg : Config} {op : Byte} {bytes : List Byte} :
    decodeOpcode cfg op bytes = .error .invalidOpcode ↔ op ∉ [cfg.opcStop, cfg.opcAdd, cfg.opcMul, cfg.opcPush1] := by
  simp only [List.mem_cons, List.not_mem_nil, or_false, not_or]
  constructor
  · intro h
    obtain ⟨-, hnone⟩ | ⟨hk, -⟩ := decodeOpcode_error h
    · exact hnone
    · cases hk
  · rintro ⟨hstop, hadd, hmul, hpush⟩
    rw [decodeOpcode, if_neg hstop, if_neg hadd, if_neg hmul, if_neg hpush]

/-- What an opcode byte decodes to has that opcode. -/
theorem opcodeOf_decoded {cfg : Config} {op : Byte} {bytes rest : List Byte} {i : Instr}
    (h : decodeOpcode cfg op bytes = .ok (i, rest)) : opcodeOf cfg i = op := by
  obtain ⟨rfl, rfl, -⟩ | ⟨rfl, rfl, -⟩ | ⟨rfl, rfl, -⟩ | ⟨imm, rfl, rfl, -⟩ := decodeOpcode_ok h <;> rfl

/-- Each of four distinct opcode values, with its operand after it, decodes to its own instruction (R84, R85). -/
theorem decodeOpcode_opcodeOf {cfg : Config} (hcfg : cfg.OpcodesDistinct) (i : Instr) (rest : List Byte) :
    decodeOpcode cfg (opcodeOf cfg i) ((encode cfg i).tail ++ rest) = .ok (i, rest) := by
  obtain ⟨⟨hadd, hmul, hpush⟩, ⟨hmul', hpush'⟩, hpush''⟩ :
      (cfg.opcStop ≠ cfg.opcAdd ∧ cfg.opcStop ≠ cfg.opcMul ∧ cfg.opcStop ≠ cfg.opcPush1) ∧
      (cfg.opcAdd ≠ cfg.opcMul ∧ cfg.opcAdd ≠ cfg.opcPush1) ∧ cfg.opcMul ≠ cfg.opcPush1 := by simpa using hcfg
  cases i with
  | stop => exact if_pos rfl
  | add => simp [decodeOpcode, opcodeOf, encode, hadd.symm]
  | mul => simp [decodeOpcode, opcodeOf, encode, hmul.symm, hmul'.symm]
  | push1 imm => simp [decodeOpcode, opcodeOf, encode, decodeImm, hpush.symm, hpush'.symm, hpush''.symm]

/-- Settles O5: the byte after the opcode rules out TruncatedImmediate, the one other answer of a value of the four. -/
theorem exactlyFourOpcodes : Obligations.ExactlyFourOpcodes := by
  refine fun cfg op => ⟨fun rest => decode_cons_raises.trans decodeOpcode_invalid_iff, fun hop b rest => ?_⟩
  cases h : decodeOpcode cfg op (b :: rest) with
  | ok r => exact ⟨r.1, r.2, decode_cons_ok.2 h, opcodeOf_decoded h⟩
  | error k =>
    obtain ⟨rfl, -⟩ | ⟨-, -, hbytes, -⟩ := decodeOpcode_error h
    · exact absurd hop (decodeOpcode_invalid_iff.1 h)
    · cases hbytes

/-! ## The length of an instruction -/

theorem Instr.one_le_length (i : Instr) : 1 ≤ i.length := by cases i <;> simp [Instr.length]

theorem Instr.length_le_two (i : Instr) : i.length ≤ 2 := by cases i <;> simp [Instr.length]

end Sys2Proof

namespace Sys2Proof.Machine

/-! ## Exec by opcode value -/

theorem execOpcode_of_decoded {cfg : Config} {op : Byte} {s : State} {i : Instr} {rest : List Byte}
    (h : decodeOpcode cfg op (s.prog.drop s.pc) = .ok (i, rest)) : execOpcode cfg op s = handlerOf i s := by
  rw [execOpcode, h]

theorem execOpcode_of_raises {cfg : Config} {op : Byte} {s : State} {k : FaultKind}
    (h : decodeOpcode cfg op (s.prog.drop s.pc) = .error k) : execOpcode cfg op s = .error k := by
  rw [execOpcode, h]

/-- Exec of an instruction's opcode runs its handler, if its operand stands at the counter (R103). -/
theorem execOpcode_opcodeOf {cfg : Config} (hcfg : cfg.OpcodesDistinct) {i : Instr} {s : State} {rest : List Byte}
    (hoperand : s.prog.drop s.pc = (encode cfg i).tail ++ rest) : execOpcode cfg (opcodeOf cfg i) s = handlerOf i s :=
  execOpcode_of_decoded (hoperand ▸ decodeOpcode_opcodeOf hcfg i rest)

/-- A two-operand handler neither reads nor writes status and fault. -/
theorem binaryHandler_setStatus_setFault (g : Word → Word → Word) (s : State) (st : Status) (f : Option FaultKind) :
    binaryHandler g ((s.setStatus st).setFault f) = (binaryHandler g s).map fun t => (t.setStatus st).setFault f := by
  simp only [binaryHandler, State.setFault_stack, State.setStatus_stack]
  cases popTwo s.stack with
  | error k => rfl
  | ok operands =>
    obtain ⟨a, b, R⟩ := operands
    dsimp only
    cases push (g a b) R <;> rfl

theorem push1Handler_setStatus_setFault (imm : Byte) (s : State) (st : Status) (f : Option FaultKind) :
    push1Handler imm ((s.setStatus st).setFault f) = (push1Handler imm s).map fun t => (t.setStatus st).setFault f := by
  simp only [push1Handler, State.setFault_stack, State.setStatus_stack]
  cases push (zext256 imm) s.stack <;> rfl

/-- No handler reads status or fault, none writes fault, and STOP's alone writes status (R103). -/
theorem handlerOf_setStatus_setFault (i : Instr) (s : State) (st : Status) (f : Option FaultKind) :
    handlerOf i ((s.setStatus st).setFault f) =
      (handlerOf i s).map fun t => (t.setStatus (if i = .stop then .halted else st)).setFault f := by
  cases i with
  | stop => rfl
  | add => exact binaryHandler_setStatus_setFault addWord s st f
  | mul => exact binaryHandler_setStatus_setFault mulWord s st f
  | push1 imm => exact push1Handler_setStatus_setFault imm s st f

/-- Settles O7: the opcode values decode to their instructions, and a handler commutes with writing status and fault. -/
theorem execDispatchesByOpcode : Obligations.ExecDispatchesByOpcode := by
  refine ⟨fun cfg hcfg s => ⟨?_, ?_, ?_, fun imm himm => ?_, fun op hop => ?_⟩, fun i s st f => ⟨fun t ht => ?_, fun k hk => ?_⟩⟩
  · exact execOpcode_opcodeOf hcfg (i := .stop) rfl
  · exact execOpcode_opcodeOf hcfg (i := .add) rfl
  · exact execOpcode_opcodeOf hcfg (i := .mul) rfl
  · have hdrop : s.prog.drop s.pc = imm :: s.prog.drop (s.pc + 1) := by
      obtain ⟨hlt, rfl⟩ := List.getElem?_eq_some_iff.1 himm
      exact List.drop_eq_getElem_cons hlt
    exact execOpcode_opcodeOf hcfg (i := .push1 imm) hdrop
  · exact execOpcode_of_raises (decodeOpcode_invalid_iff.2 hop)
  · exact (handlerOf_setStatus_setFault i s st f).trans (by rw [ht]; rfl)
  · exact (handlerOf_setStatus_setFault i s st f).trans (by rw [hk]; rfl)

/-! ## The counter -/

/-- A handler moves the counter past its operand: the length of its instruction less the opcode byte (R109). -/
theorem handlerOf_pc {i : Instr} {s t : State} (h : handlerOf i s = .ok t) : t.pc + 1 = s.pc + i.length := by
  cases i with
  | stop => cases h; rfl
  | add => obtain ⟨R, a, b, -, -, rfl⟩ := binaryHandler_ok h; rfl
  | mul => obtain ⟨R, a, b, -, -, rfl⟩ := binaryHandler_ok h; rfl
  | push1 imm => obtain ⟨-, rfl⟩ := push1Handler_ok h; rfl

/-- An instruction's transaction moves the counter past the instruction, or leaves it where a fault is entered (R109). -/
theorem settle_handlerOf_pc (i : Instr) (s : State) :
    (settle s (handlerOf i s.pastOpcode)).pc = s.pc + i.length ∨ (settle s (handlerOf i s.pastOpcode)).pc = s.pc := by
  cases h : handlerOf i s.pastOpcode with
  | ok t =>
    have hpc := handlerOf_pc h
    rw [State.pastOpcode_pc] at hpc
    exact .inl (by rw [settle_ok]; omega)
  | error k => exact .inr rfl

/-- An instruction's transaction moves the counter forward, by the instruction's length at most. -/
theorem settle_handlerOf_pc_bounds (i : Instr) (s : State) :
    s.pc ≤ (settle s (handlerOf i s.pastOpcode)).pc ∧ (settle s (handlerOf i s.pastOpcode)).pc ≤ s.pc + i.length := by
  have hpc := settle_handlerOf_pc i s
  omega

theorem exec_pc_bounds {i : Instr} {s t : State} (h : exec i s = .next t) : s.pc ≤ t.pc ∧ t.pc ≤ s.pc + i.length := by
  rw [exec_eq] at h
  cases h
  exact settle_handlerOf_pc_bounds i s

theorem stepWith_pc_bounds {cfg : Config} {s t : State} (h : stepWith cfg s = .next t) : s.pc ≤ t.pc ∧ t.pc ≤ s.pc + 2 := by
  obtain ⟨-, ⟨-, rfl⟩ | ⟨i, rest, -, rfl⟩ | ⟨k, -, rfl⟩⟩ := stepWith_cases h
  · simp
  · have hbounds := settle_handlerOf_pc_bounds i s
    have hlen := i.length_le_two
    omega
  · simp

/-- Dispatch adds no opcode byte, so it moves the counter past an operand at most (R109). -/
theorem dispatchWith_pc_bounds {cfg : Config} {op : Byte} {s t : State} (h : dispatchWith cfg op s = .next t) :
    s.pc ≤ t.pc ∧ t.pc ≤ s.pc + 1 := by
  obtain ⟨-, ⟨k, -, rfl⟩ | ⟨u, hu, rfl⟩⟩ := dispatchWith_cases h
  · simp
  · obtain ⟨i, rest, -, hi⟩ := execOpcode_ok hu
    have hpc := handlerOf_pc hi
    have hmin := i.one_le_length
    have hmax := i.length_le_two
    rw [fitPc_pc]
    split <;> omega

/-- Settles O29: the handlers move the counter past their operand and no further, so each call does within its bounds. -/
theorem pcNeverDecreases : Obligations.PcNeverDecreases :=
  fun _ _ _ => ⟨fun _ => exec_pc_bounds, stepWith_pc_bounds, fun _ => dispatchWith_pc_bounds⟩

/-! ## Decode and the end of the program -/

theorem decodeByte_at_end (cfg : Config) {s : State} (h : s.prog.length ≤ s.pc) :
    decodeByte cfg s = { op := cfg.opcStop, implicit := true, after := s } := by
  rw [decodeByte, List.getElem?_eq_none h]

theorem decodeByte_at_byte (cfg : Config) {s : State} {b : Byte} (h : s.prog[s.pc]? = some b) :
    decodeByte cfg s = { op := b, implicit := false, after := s.pastOpcode } := by
  rw [decodeByte, h]

/-- Settles O22: one clause for each branch of Decode. -/
theorem decodeReadsOneByte : Obligations.DecodeReadsOneByte :=
  fun cfg _ => ⟨decodeByte_at_end cfg, fun _ => decodeByte_at_byte cfg⟩

theorem stepWith_of_running (cfg : Config) {s : State} (h : s.status = .running) : stepWith cfg s = stepRunning cfg s := by
  rw [stepWith, h]

/-- At or past the end a Step in Running is STOP's handler with the counter where it stands (R105). -/
theorem stepRunning_at_end (cfg : Config) {s : State} (h : s.prog.length ≤ s.pc) :
    stepRunning cfg s = .next (s.setStatus .halted) := by
  rw [stepRunning, List.drop_eq_nil_of_le h, decode_nil]
  rfl

/-- Settles O21, by the end-of-program branches of Decode and of Step. -/
theorem endOfProgramHalts : Obligations.EndOfProgramHalts :=
  fun cfg _ hrun hend => ⟨decodeByte_at_end cfg hend, (stepWith_of_running cfg hrun).trans (stepRunning_at_end cfg hend)⟩

end Sys2Proof.Machine

/-! PROOFS. The family 41_arithmetic.md: the operand order (R120), the results of ADD and MUL and their short stack (R121, R122). -/

namespace Sys2Proof.Machine

/-! ## The two answers of a two-operand handler, on a stack within its bound -/

/-- A stack within its bound has room for the result once its two top words are popped, so the handler completes (R120). -/
theorem binaryHandler_of_two_on_top (f : Word → Word → Word) {s : State} {R : List Word} {a b : Word}
    (hS : s.stack = R ++ [b, a]) (hbound : s.stack.length ≤ stackDepth) :
    binaryHandler f s = .ok (s.setStack (R ++ [f a b])) := by
  have hlen : s.stack.length = R.length + 2 := by simp [hS]
  have hroom : R.length + 1 ≤ stackDepth := by omega
  simp only [binaryHandler, hS, popTwo_append, push_of_room (f a b) hroom]

/-- The operand count is checked before the first pop (R124). -/
theorem binaryHandler_of_short (f : Word → Word → Word) {s : State} (h : s.stack.length < 2) :
    binaryHandler f s = .error .stackUnderflow := by
  simp only [binaryHandler, popTwo_of_short h]

/-- The transaction of an instruction with a two-operand handler: the counter past the opcode byte, the result in place of the two
top words, nothing else written (R102, R120). -/
theorem exec_of_two_on_top {i : Instr} {f : Word → Word → Word} (hi : handlerOf i = binaryHandler f) {s : State}
    {R : List Word} {a b : Word} (hS : s.stack = R ++ [b, a]) (hbound : s.stack.length ≤ stackDepth) :
    exec i s = .next { s with pc := s.pc + 1, stack := R ++ [f a b] } := by
  have hhandler := binaryHandler_of_two_on_top f (s := s.pastOpcode) hS hbound
  rw [exec_eq, hi, hhandler]
  rfl

/-! ## Operand order and results -/

theorem addWord_comm (a b : Word) : addWord a b = addWord b a := by
  rw [addWord_eq, addWord_eq, BitVec.add_comm]

theorem mulWord_comm (a b : Word) : mulWord a b = mulWord b a := by
  rw [mulWord_eq, mulWord_eq, BitVec.mul_comm]

/-- Settles O11: the handler's answer with two words on top, for any operation; sum and product are those of bit vectors, which
commute. -/
theorem firstPopIsTheLeftOperand : Obligations.FirstPopIsTheLeftOperand := by
  refine ⟨fun f s R x y hS hbound => ⟨binaryHandler_of_two_on_top f hS hbound, ?_⟩, addWord_comm, mulWord_comm⟩
  simp [hS]

/-- Settles O12: ADD is the two-operand handler of `addWord`, which is the exact sum narrowed (R123). -/
theorem addGivesTheSum : Obligations.AddGivesTheSum :=
  ⟨fun _ _ _ _ => exec_of_two_on_top (i := .add) (f := addWord) rfl, fun _ => binaryHandler_of_short addWord⟩

/-- Settles O13: MUL is the two-operand handler of `mulWord`, which is the exact product narrowed (R123). -/
theorem mulGivesTheProduct : Obligations.MulGivesTheProduct :=
  ⟨fun _ _ _ _ => exec_of_two_on_top (i := .mul) (f := mulWord) rfl, fun _ => binaryHandler_of_short mulWord⟩

end Sys2Proof.Machine

/-! PROOFS. The family 42_push.md: the big-endian value of immediate bytes and the Step at a PUSH1 (R131). -/

namespace Sys2Proof.Machine

/-! ## The value of immediate bytes -/

/-- Each further byte is the less significant one: it shifts the value before it by one byte (R131). -/
theorem immBE_succ (prog : List Byte) (p n : Nat) :
    immBE prog p (n + 1) = immBE prog p n * 256 + (prog.getD (p + n) 0).toNat := by
  have hshift : ∀ i ∈ List.range n, (prog.getD (p + i) 0).toNat * 256 ^ (n + 1 - 1 - i)
      = (prog.getD (p + i) 0).toNat * 256 ^ (n - 1 - i) * 256 := by
    intro i hi
    have hlt : i < n := List.mem_range.1 hi
    have hexp : n + 1 - 1 - i = n - 1 - i + 1 := by omega
    rw [hexp, Nat.pow_succ, Nat.mul_assoc]
  rw [immBE, immBE, List.range_succ, List.map_append, List.sum_append, List.map_congr_left hshift, List.sum_map_mul_right]
  simp

theorem immBE_one {prog : List Byte} {p : Nat} {b : Byte} (h : prog[p]? = some b) : immBE prog p 1 = b.toNat := by
  rw [immBE_succ]
  simp [immBE, h]

/-- Widening with zeros keeps the byte's value (R10). -/
@[simp] theorem zext256_toNat (b : Byte) : (zext256 b).toNat = b.toNat := BitVec.toNat_setWidth_of_le (by decide)

/-! ## The Step at a PUSH1 -/

/-- A Step in Running is the transaction of the instruction that decodes at the counter (R102). -/
theorem stepWith_of_decoded {cfg : Config} {s : State} {i : Instr} {rest : List Byte} (hrun : s.status = .running)
    (hdecode : decode cfg (s.prog.drop s.pc) = .ok (i, rest)) : stepWith cfg s = exec i s := by
  rw [stepWith_of_running cfg hrun, stepRunning, hdecode]

/-- The opcode byte of PUSH1 and the byte after it decode to PUSH1 of that byte (R82, R84). -/
theorem decode_push1_at {cfg : Config} (hcfg : cfg.OpcodesDistinct) {prog : List Byte} {p : Nat} {imm : Byte}
    (hop : prog[p]? = some cfg.opcPush1) (himm : prog[p + 1]? = some imm) :
    decode cfg (prog.drop p) = .ok (.push1 imm, prog.drop (p + 2)) := by
  have hdrop : prog.drop p = cfg.opcPush1 :: imm :: prog.drop (p + 2) := by
    rw [List.drop_eq_getElem?_toList_append, hop, List.drop_eq_getElem?_toList_append, himm]
    rfl
  rw [hdrop]
  exact decode_cons_ok.2 (decodeOpcode_opcodeOf hcfg (.push1 imm) (prog.drop (p + 2)))

/-- Settles O17: the value by its recursion, and the Step as the transaction of the PUSH1 that decodes, whose immediate is the value
of one byte. -/
theorem immediateValueIsPushed : Obligations.ImmediateValueIsPushed := by
  refine ⟨fun prog p n b hb => ?_, fun prog p b hb => ?_, fun cfg hcfg s hrun hop himm hroom => ?_⟩
  · rw [immBE_succ, List.getD_eq_getElem?_getD, hb, Option.getD_some]
  · rw [zext256_toNat, immBE_one hb]
    exact ⟨rfl, rfl⟩
  · have himm' : s.prog[s.pc + 1]? = some s.prog[s.pc + 1] := List.getElem?_eq_getElem himm
    rw [stepWith_of_decoded hrun (decode_push1_at hcfg hop himm'), immBE_one himm']
    exact push1PushesTheByte _ s hroom

end Sys2Proof.Machine
/-! PROOFS. The encoding of 30_encoding.md: decoder and encoder are inverse to each other (sections 1 to 3), the length that an
opcode byte tells (R85), the words of the opcode table. -/

namespace Sys2Proof

/-! ## Decoder and encoder -/

theorem encode_eq_opcode_cons (cfg : Config) (i : Instr) : encode cfg i = opcodeOf cfg i :: (encode cfg i).tail := by
  cases i <;> rfl

/-- The encoding of an instruction decodes to it, whatever bytes stand after it (R81, R82, R84). -/
theorem decode_encode_append {cfg : Config} (hcfg : cfg.OpcodesDistinct) (i : Instr) (rest : List Byte) :
    decode cfg (encode cfg i ++ rest) = .ok (i, rest) := by
  rw [encode_eq_opcode_cons, List.cons_append]
  exact decode_cons_ok.2 (decodeOpcode_opcodeOf hcfg i rest)

/-- Settles O2: an encoding is its opcode byte and its operand, and these decode to the instruction. -/
theorem encodedInstructionDecodesBack : Obligations.EncodedInstructionDecodesBack :=
  fun _ hcfg i rest => decode_encode_append hcfg i rest

@[simp] theorem encodeAll_nil (cfg : Config) : encodeAll cfg [] = [] := rfl

@[simp] theorem encodeAll_cons (cfg : Config) (i : Instr) (is : List Instr) :
    encodeAll cfg (i :: is) = encode cfg i ++ encodeAll cfg is := rfl

/-- The decodings of a program's encoding are the program's instructions, one after another, and then the end (R88). -/
theorem decodeAll_encodeAll {cfg : Config} (hcfg : cfg.OpcodesDistinct) {is : List Instr} {fuel : Nat} (hfuel : is.length < fuel) :
    decodeAll cfg fuel (encodeAll cfg is) = some (is, .endOfProgram) := by
  obtain ⟨n, rfl⟩ := Nat.exists_eq_add_one_of_ne_zero (Nat.ne_zero_of_lt hfuel)
  induction is generalizing n with
  | nil => simp [decodeAll]
  | cons i is ih =>
    rw [List.length_cons] at hfuel
    obtain ⟨m, rfl⟩ : ∃ m, n = m + 1 := ⟨n - 1, by omega⟩
    have hrest : decodeAll cfg (m + 1) (encodeAll cfg is) = some (is, .endOfProgram) := ih m (by omega)
    rw [encodeAll_cons, decodeAll]
    simp only [decode_encode_append hcfg, hrest]

/-- Settles O4, by induction over the instructions: the first encoding decodes to its instruction and leaves the others. -/
theorem instructionSequenceDecodesBack : Obligations.InstructionSequenceDecodesBack :=
  fun _ hcfg _ _ hfuel => decodeAll_encodeAll hcfg hfuel

/-- What decodes is an encoding, or a PUSH1 opcode alone that `zero_pad` completes (R132). -/
theorem decode_ok {cfg : Config} {bytes rest : List Byte} {i : Instr} (h : decode cfg bytes = .ok (i, rest)) :
    bytes = encode cfg i ++ rest ∨ (cfg.truncPolicy = .zeroPad ∧ bytes = [cfg.opcPush1] ∧ i = .push1 0 ∧ rest = []) := by
  cases bytes with
  | nil => cases h
  | cons op bytes =>
    obtain ⟨rfl, rfl, rfl⟩ | ⟨rfl, rfl, rfl⟩ | ⟨rfl, rfl, rfl⟩ | ⟨imm, rfl, rfl, himm⟩ := decodeOpcode_ok (decode_cons_ok.1 h)
    · exact .inl rfl
    · exact .inl rfl
    · exact .inl rfl
    · obtain rfl | ⟨rfl, hpolicy, rfl, rfl⟩ := decodeImm_ok himm
      · exact .inl rfl
      · exact .inr ⟨hpolicy, rfl, rfl, rfl⟩

/-- Settles O3: one opcode value for each instruction, and for PUSH1 the two ways to come by an immediate. -/
theorem decodedBytesAreTheEncoding : Obligations.DecodedBytesAreTheEncoding := fun _ _ _ _ => decode_ok

/-! ## The length of an instruction, told by its opcode -/

theorem ne_opcPush1 {cfg : Config} (hcfg : cfg.OpcodesDistinct) :
    cfg.opcStop ≠ cfg.opcPush1 ∧ cfg.opcAdd ≠ cfg.opcPush1 ∧ cfg.opcMul ≠ cfg.opcPush1 := by
  simp only [Config.OpcodesDistinct, List.nodup_cons, List.mem_cons, List.not_mem_nil, not_or] at hcfg
  obtain ⟨⟨-, -, hstop, -⟩, ⟨-, hadd, -⟩, ⟨hmul, -⟩, -⟩ := hcfg
  exact ⟨hstop, hadd, hmul⟩

theorem opcodeLength_opcodeOf {cfg : Config} (hcfg : cfg.OpcodesDistinct) (i : Instr) :
    opcodeLength cfg (opcodeOf cfg i) = some i.length := by
  obtain ⟨hstop, hadd, hmul⟩ := ne_opcPush1 hcfg
  cases i with
  | stop => simp [opcodeLength, opcodeOf, Instr.length, hstop]
  | add => simp [opcodeLength, opcodeOf, Instr.length, hadd]
  | mul => simp [opcodeLength, opcodeOf, Instr.length, hmul]
  | push1 imm => simp [opcodeLength, opcodeOf, Instr.length]

/-- Settles O6: the opcode byte is the decoded instruction's own. -/
theorem opcodeTellsTheLength : Obligations.OpcodeTellsTheLength := by
  intro cfg hcfg op rest left i h
  rw [← opcodeOf_decoded (decode_cons_ok.1 h)]
  exact opcodeLength_opcodeOf hcfg i

/-! ## The words of the opcode table -/

/-- Settles O1: the core's opcode values are fixed ones, so each word's decoding is a closed computation. -/
theorem specWordsDecode : Obligations.SpecWordsDecode := by
  unfold Obligations.SpecWordsDecode
  decide

end Sys2Proof

/-! PROOFS. What a transaction does: the faults and the frame of the handlers (R104, R120 to R125, R130), Step as Decode and then
Exec (R102), Dispatch as Exec at the counter (R107), and what both leave in each field. -/

namespace Sys2Proof.Machine

/-! ## The kinds raised -/

theorem decodeOpcode_error_runLevel {cfg : Config} {op : Byte} {bytes : List Byte} {k : FaultKind}
    (h : decodeOpcode cfg op bytes = .error k) : k.runLevel = true := by
  obtain ⟨rfl, -⟩ | ⟨rfl, -⟩ := decodeOpcode_error h <;> rfl

theorem handlerOf_error_runLevel {i : Instr} {s : State} {k : FaultKind} (h : handlerOf i s = .error k) : k.runLevel = true := by
  obtain rfl | rfl := handlerOf_error h <;> rfl

/-- Exec raises run-level kinds only (60_exceptions.md R140). -/
theorem execOpcode_error_runLevel {cfg : Config} {op : Byte} {s : State} {k : FaultKind} (h : execOpcode cfg op s = .error k) :
    k.runLevel = true := by
  obtain hdecode | ⟨i, rest, -, hhandler⟩ := execOpcode_error h
  · exact decodeOpcode_error_runLevel hdecode
  · exact handlerOf_error_runLevel hhandler

theorem enterFault_eq (k : FaultKind) (s : State) : enterFault k s = { s with status := .faulted, fault := some k } := rfl

/-! ## The frame of a handler that completes -/

/-- A handler that completes has written the counter, the stack and, STOP's alone, the status (R103, R104). -/
theorem handlerOf_frame {i : Instr} {s t : State} (h : handlerOf i s = .ok t) :
    t = { s with pc := t.pc, stack := t.stack, status := if i = .stop then .halted else s.status } := by
  cases i with
  | stop => cases h; rfl
  | add => obtain ⟨R, a, b, -, -, rfl⟩ := binaryHandler_ok h; rfl
  | mul => obtain ⟨R, a, b, -, -, rfl⟩ := binaryHandler_ok h; rfl
  | push1 imm => obtain ⟨-, rfl⟩ := push1Handler_ok h; rfl

theorem handlerOf_mem {i : Instr} {s t : State} (h : handlerOf i s = .ok t) : t.mem = s.mem := by
  rw [handlerOf_frame h]

theorem handlerOf_fault {i : Instr} {s t : State} (h : handlerOf i s = .ok t) : t.fault = s.fault := by
  rw [handlerOf_frame h]

theorem handlerOf_status {i : Instr} {s t : State} (h : handlerOf i s = .ok t) :
    t.status = if i = .stop then .halted else s.status := by
  rw [handlerOf_frame h]

/-- A handler that completes leaves a stack within its bound if it found one (R22, R24). -/
theorem handlerOf_stack_bound {i : Instr} {s t : State} (h : handlerOf i s = .ok t) (hs : s.stack.length ≤ stackDepth) :
    t.stack.length ≤ stackDepth := by
  cases i with
  | stop => cases h; exact hs
  | add => obtain ⟨R, a, b, -, hroom, rfl⟩ := binaryHandler_ok h; simpa using hroom
  | mul => obtain ⟨R, a, b, -, hroom, rfl⟩ := binaryHandler_ok h; simpa using hroom
  | push1 imm => obtain ⟨hroom, rfl⟩ := push1Handler_ok h; simpa using hroom

theorem handlerOf_status_ne_faulted {i : Instr} {s t : State} (h : handlerOf i s = .ok t) (hs : s.status = .running) :
    t.status ≠ .faulted := by
  rw [handlerOf_status h]
  split <;> simp [hs]

theorem execOpcode_status_ne_faulted {cfg : Config} {op : Byte} {s t : State} (h : execOpcode cfg op s = .ok t)
    (hs : s.status = .running) : t.status ≠ .faulted := by
  obtain ⟨i, rest, -, hi⟩ := execOpcode_ok h
  exact handlerOf_status_ne_faulted hi hs

theorem execOpcode_mem {cfg : Config} {op : Byte} {s t : State} (h : execOpcode cfg op s = .ok t) : t.mem = s.mem := by
  obtain ⟨i, rest, -, hi⟩ := execOpcode_ok h
  exact handlerOf_mem hi

/-! ## The transactions of ADD, MUL and PUSH1, where they fault and where not -/

/-- ADD and MUL are two-operand handlers (R120). -/
theorem exists_binaryHandler {i : Instr} (hi : i = .add ∨ i = .mul) : ∃ f, handlerOf i = binaryHandler f := by
  obtain rfl | rfl := hi
  · exact ⟨addWord, rfl⟩
  · exact ⟨mulWord, rfl⟩

/-- Settles O14: the transaction of a two-operand handler that raises StackUnderflow is the fault entry. -/
theorem shortStackUnderflows : Obligations.ShortStackUnderflows := by
  intro s i hi hshort
  obtain ⟨f, hf⟩ := exists_binaryHandler hi
  have hraise : binaryHandler f s.pastOpcode = .error .stackUnderflow := binaryHandler_of_short f hshort
  rw [exec_eq, hf, hraise, settle_error, enterFault_eq]

/-- Settles O15: StackOverflow would need more words than the bound allows. -/
theorem addAndMulNeverOverflow : Obligations.AddAndMulNeverOverflow := by
  intro s k hbound h
  obtain ⟨f, hf⟩ : ∃ f, binaryHandler f s = .error k := h.elim (fun h => ⟨addWord, h⟩) (fun h => ⟨mulWord, h⟩)
  obtain hunder | ⟨-, hover⟩ := binaryHandler_error hf
  · exact hunder
  · exact absurd hover (by simp only [stackDepth]; omega)

theorem push1Handler_of_full {s : State} (imm : Byte) (h : stackDepth ≤ s.stack.length) :
    push1Handler imm s = .error .stackOverflow := by
  rw [push1Handler, push_of_full (zext256 imm) h]

/-- Settles O18: the transaction of a PUSH1 whose handler raises StackOverflow is the fault entry. -/
theorem fullStackOverflows : Obligations.FullStackOverflows := by
  intro imm s hfull
  have hraise : push1Handler imm s.pastOpcode = .error .stackOverflow := push1Handler_of_full imm hfull
  rw [exec_eq, handlerOf, hraise, settle_error, enterFault_eq]

/-- An instruction's transaction keeps the data memory, whether its handler completes or its fault is entered (R60). -/
theorem exec_mem {i : Instr} {s t : State} (h : exec i s = .next t) : t.mem = s.mem := by
  rw [exec_eq] at h
  cases h
  cases hhandler : handlerOf i s.pastOpcode with
  | ok t => rw [settle_ok, handlerOf_mem hhandler, State.pastOpcode_mem]
  | error k => rfl

/-- Settles O47: STOP's handler completes and writes the status alone. -/
theorem stopFrame : Obligations.StopFrame := by
  intro s t h
  rw [exec_eq] at h
  cases h
  exact ⟨rfl, rfl, rfl, rfl, rfl, fun _ => rfl⟩

/-- Settles O48: a two-operand handler completes with one word for the two on top, or its fault is entered. -/
theorem addAndMulFrame : Obligations.AddAndMulFrame := by
  intro i s t hi h
  refine ⟨exec_prog h, exec_mem h, fun o => by rw [exec_mem h], ?_⟩
  obtain ⟨f, hf⟩ := exists_binaryHandler hi
  rw [exec_eq, hf] at h
  cases h
  cases hhandler : binaryHandler f s.pastOpcode with
  | ok t =>
    obtain ⟨R, a, b, hS, -, rfl⟩ := binaryHandler_ok hhandler
    rw [State.pastOpcode_stack] at hS
    exact ⟨by simp [hS], .inl ⟨rfl, rfl, by simp [hS]⟩⟩
  | error k => exact ⟨rfl, .inr ⟨rfl, by simp, rfl⟩⟩

/-- Settles O49: PUSH1's handler completes with one word more, or its fault, StackOverflow, is entered. -/
theorem push1Frame : Obligations.Push1Frame := by
  intro imm s t h
  refine ⟨exec_prog h, exec_mem h, fun o => by rw [exec_mem h], ?_⟩
  rw [exec_eq, handlerOf] at h
  cases h
  cases hhandler : push1Handler imm s.pastOpcode with
  | ok t =>
    obtain ⟨-, rfl⟩ := push1Handler_ok hhandler
    exact ⟨by simp, .inl ⟨rfl, rfl, by simp⟩⟩
  | error k =>
    obtain ⟨-, rfl⟩ := push1Handler_error hhandler
    exact ⟨by simp, .inr ⟨rfl, rfl, rfl⟩⟩

/-! ## Step -/

/-- What stands at the counter: the byte there, and the bytes after it. -/
theorem drop_pc_of_byte {s : State} {b : Byte} (h : s.prog[s.pc]? = some b) : s.prog.drop s.pc = b :: s.prog.drop (s.pc + 1) := by
  rw [List.drop_eq_getElem?_toList_append, h]
  rfl

theorem byte_of_drop_pc {s : State} {b : Byte} {rest : List Byte} (h : s.prog.drop s.pc = b :: rest) : s.prog[s.pc]? = some b := by
  have hhead : (s.prog.drop s.pc).head? = some b := by rw [h]; rfl
  rwa [List.head?_drop] at hhead

theorem stepWith_of_ended (cfg : Config) {s t : State} (h : s.status ≠ .running) : stepWith cfg s ≠ .next t :=
  fun ht => h (stepWith_cases ht).1

/-- At the end of the program Decode reports STOP and nothing is read for it, so Exec runs its handler (R101, R105). -/
theorem execOpcode_opcStop (cfg : Config) (s : State) : execOpcode cfg cfg.opcStop s = stopHandler s :=
  execOpcode_of_decoded (i := .stop) (if_pos rfl)

/-- A Step in Running is Decode, then Exec of the opcode that Decode reports (R102). -/
theorem stepWith_eq_settle (cfg : Config) {s : State} (hrun : s.status = .running) :
    stepWith cfg s = .next (settle s (execOpcode cfg (decodeByte cfg s).op (decodeByte cfg s).after)) := by
  rw [stepWith_of_running cfg hrun]
  cases hbyte : s.prog[s.pc]? with
  | none =>
    have hend : s.prog.length ≤ s.pc := List.getElem?_eq_none_iff.1 hbyte
    rw [stepRunning_at_end cfg hend, decodeByte_at_end cfg hend, execOpcode_opcStop]
    rfl
  | some op =>
    rw [decodeByte_at_byte cfg hbyte, stepRunning, drop_pc_of_byte hbyte]
    cases hdecode : decodeOpcode cfg op (s.prog.drop (s.pc + 1)) with
    | ok r => rw [decode_cons_ok.2 hdecode, execOpcode_of_decoded (s := s.pastOpcode) hdecode]; exact exec_eq r.1 s
    | error k => rw [decode_cons_raises.2 hdecode, execOpcode_of_raises (s := s.pastOpcode) hdecode]; rfl

/-- Settles O25: byte by byte, the decoder and Decode with Exec read the same instruction. -/
theorem stepIsDecodeThenExec : Obligations.StepIsDecodeThenExec := fun cfg _ hrun => stepWith_eq_settle cfg hrun

/-- A Step that has a next state began in Running and ends what Exec answers after Decode. -/
theorem stepWith_next {cfg : Config} {s t : State} (h : stepWith cfg s = .next t) :
    s.status = .running ∧ t = settle s (execOpcode cfg (decodeByte cfg s).op (decodeByte cfg s).after) := by
  have hrun := (stepWith_cases h).1
  rw [stepWith_eq_settle cfg hrun] at h
  cases h
  exact ⟨hrun, rfl⟩

/-- Decode moves the counter at most. -/
theorem decodeByte_after_cases (cfg : Config) (s : State) :
    (decodeByte cfg s).after = s ∨ (decodeByte cfg s).after = s.pastOpcode := by
  cases hbyte : s.prog[s.pc]? with
  | none => exact .inl (by rw [decodeByte_at_end cfg (List.getElem?_eq_none_iff.1 hbyte)])
  | some b => exact .inr (by rw [decodeByte_at_byte cfg hbyte])

theorem decodeByte_after_status (cfg : Config) (s : State) : (decodeByte cfg s).after.status = s.status := by
  obtain h | h := decodeByte_after_cases cfg s
  · rw [h]
  · rw [h, State.pastOpcode_status]

theorem decodeByte_after_mem (cfg : Config) (s : State) : (decodeByte cfg s).after.mem = s.mem := by
  obtain h | h := decodeByte_after_cases cfg s
  · rw [h]
  · rw [h, State.pastOpcode_mem]

theorem instr_wf (i : Instr) : i.wf = true := by
  cases i with
  | stop => exact Laws.EncodedForm.stop.1
  | add => exact Laws.EncodedForm.add.1
  | mul => exact Laws.EncodedForm.mul.1
  | push1 imm => exact (Laws.EncodedForm.push1 imm).1

/-- Settles O23: a Step runs what decodes, and every instruction is well formed. -/
theorem stepRunsTheDecodedInstruction : Obligations.StepRunsTheDecodedInstruction :=
  ⟨fun _ _ _ _ => stepWith_of_decoded, fun _ i _ hrun hdecode => ⟨instr_wf i, stepWith_of_decoded hrun hdecode⟩⟩

/-- Settles O20: the transaction is closed, and a Step needs Running. -/
theorem stopHalts : Obligations.StopHalts :=
  fun s => ⟨exec_eq .stop s, fun cfg _ => stepWith_of_ended cfg (by simp)⟩

/-- Settles O35: Decode reports the byte, Exec raises InvalidOpcode for it, and fault entry keeps stack and memory. -/
theorem invalidOpcodeLeavesStackAndMemory : Obligations.InvalidOpcodeLeavesStackAndMemory := by
  intro cfg s op hrun hbyte hop
  have hraise : execOpcode cfg op s.pastOpcode = .error .invalidOpcode := execOpcode_of_raises (decodeOpcode_invalid_iff.2 hop)
  refine ⟨enterFault .invalidOpcode s, ?_, rfl, rfl, rfl, rfl⟩
  rw [stepWith_eq_settle cfg hrun, decodeByte_at_byte cfg hbyte, hraise, settle_error]

/-! ## Dispatch -/

theorem dispatchWith_of_running (cfg : Config) (op : Byte) {s : State} (h : s.status = .running) :
    dispatchWith cfg op s = .next (fitPc cfg s (settle s (execOpcode cfg op s))) := by
  rw [dispatchWith, h]

theorem dispatchWith_of_raises {cfg : Config} {op : Byte} {s : State} {k : FaultKind} (hrun : s.status = .running)
    (h : execOpcode cfg op s = .error k) : dispatchWith cfg op s = .next { s with status := .faulted, fault := some k } := by
  rw [dispatchWith_of_running cfg op hrun, h, settle_error, fitPc_enterFault, enterFault_eq]

theorem dispatchWith_of_completes {cfg : Config} {op : Byte} {s t : State} (hrun : s.status = .running)
    (h : execOpcode cfg op s = .ok t) : dispatchWith cfg op s = .next (fitPc cfg s t) := by
  rw [dispatchWith_of_running cfg op hrun, h, settle_ok]

/-- Where the counter stays, the register write adds nothing. -/
theorem dispatchWith_of_pc_eq {cfg : Config} {op : Byte} {s t : State} (hrun : s.status = .running)
    (h : execOpcode cfg op s = .ok t) (hpc : t.pc = s.pc) : dispatchWith cfg op s = .next t := by
  rw [dispatchWith_of_completes hrun h, fitPc_of_pc_eq hpc]

/-- What Exec answers moves the counter for PUSH1 alone, by one, below the end of the program or under `zero_pad` (R109, R132). -/
theorem execOpcode_pc {cfg : Config} {op : Byte} {s t : State} (h : execOpcode cfg op s = .ok t) :
    t.pc = s.pc ∨ (op = cfg.opcPush1 ∧ t.pc = s.pc + 1 ∧ (s.pc < s.prog.length ∨ cfg.truncPolicy = .zeroPad)) := by
  obtain ⟨i, rest, hdecode, hi⟩ := execOpcode_ok h
  have hpc := handlerOf_pc hi
  obtain ⟨rfl, -⟩ | ⟨rfl, -⟩ | ⟨rfl, -⟩ | ⟨imm, rfl, hop, himm⟩ := decodeOpcode_ok hdecode
  · exact .inl (Nat.succ_injective hpc)
  · exact .inl (Nat.succ_injective hpc)
  · exact .inl (Nat.succ_injective hpc)
  · refine .inr ⟨hop, Nat.succ_injective hpc, ?_⟩
    obtain hbytes | ⟨-, hpad, -⟩ := decodeImm_ok himm
    · exact .inl (List.getElem?_eq_some_iff.1 (byte_of_drop_pc hbytes)).1
    · exact .inr hpad

/-- Settles O59: the register write keeps a pc that has not moved, and one that the register can hold. -/
theorem dispatchIsExecAtTheCounter : Obligations.DispatchIsExecAtTheCounter := by
  refine fun cfg op s hrun => ⟨dispatchWith_of_running cfg op hrun, fun hfits => ?_⟩
  cases h : execOpcode cfg op s with
  | error k => rw [dispatchWith_of_raises hrun h, settle_error, enterFault_eq]
  | ok t =>
    obtain hpc | ⟨hop, hpc, -⟩ := execOpcode_pc h
    · exact dispatchWith_of_pc_eq hrun h hpc
    · rw [dispatchWith_of_completes hrun h, settle_ok, fitPc_of_lt (hpc ▸ hfits.resolve_left (absurd hop))]

/-! ## What both calls report and leave -/

theorem outcomeOf_of_running {s : State} (h : s.status = .running) : outcomeOf s = none := by rw [outcomeOf, h]

theorem stepResult_of_running (cfg : Config) {s : State} (h : s.status = .running) :
    stepResult cfg s = resultOf (decodeByte cfg s).op (execOpcode cfg (decodeByte cfg s).op (decodeByte cfg s).after) := by
  rw [stepResult, outcomeOf_of_running h]

theorem dispatchResult_of_running (cfg : Config) (op : Byte) {s : State} (h : s.status = .running) :
    dispatchResult cfg op s = resultOf op (execOpcode cfg op s) := by
  rw [dispatchResult, outcomeOf_of_running h]

/-- Settles O26: the result and the next state are both read off what Exec answers. -/
theorem stepReportsItsOutcome : Obligations.StepReportsItsOutcome := by
  refine ⟨fun cfg s t h => ?_, fun cfg op s t h => ?_⟩
  · obtain ⟨hrun, rfl⟩ := stepWith_next h
    rw [stepResult_of_running cfg hrun]
    cases hexec : execOpcode cfg (decodeByte cfg s).op (decodeByte cfg s).after with
    | ok u => exact .inl ⟨rfl, execOpcode_status_ne_faulted hexec ((decodeByte_after_status cfg s).trans hrun)⟩
    | error k => exact .inr ⟨k, rfl, rfl, rfl⟩
  · obtain ⟨hrun, ⟨k, hexec, rfl⟩ | ⟨u, hexec, rfl⟩⟩ := dispatchWith_cases h
    · exact .inr ⟨k, by rw [dispatchResult_of_running cfg op hrun, hexec]; rfl, rfl, rfl⟩
    · rw [dispatchResult_of_running cfg op hrun, hexec, fitPc_status]
      exact .inl ⟨rfl, execOpcode_status_ne_faulted hexec hrun⟩

/-- Settles O34: what completes does not end in Faulted, and what faults is fault entry with a run-level kind. -/
theorem faultEntryIsPrecise : Obligations.FaultEntryIsPrecise := by
  rintro cfg op s t (h | h) hfaulted
  · obtain ⟨hrun, rfl⟩ := stepWith_next h
    cases hexec : execOpcode cfg (decodeByte cfg s).op (decodeByte cfg s).after with
    | ok u =>
      rw [hexec, settle_ok] at hfaulted
      exact absurd hfaulted (execOpcode_status_ne_faulted hexec ((decodeByte_after_status cfg s).trans hrun))
    | error k => exact ⟨k, execOpcode_error_runLevel hexec, rfl⟩
  · obtain ⟨hrun, ⟨k, hexec, rfl⟩ | ⟨u, hexec, rfl⟩⟩ := dispatchWith_cases h
    · exact ⟨k, execOpcode_error_runLevel hexec, rfl⟩
    · rw [fitPc_status] at hfaulted
      exact absurd hfaulted (execOpcode_status_ne_faulted hexec hrun)

theorem stepWith_mem {cfg : Config} {s t : State} (h : stepWith cfg s = .next t) : t.mem = s.mem := by
  obtain ⟨-, rfl⟩ := stepWith_next h
  cases hexec : execOpcode cfg (decodeByte cfg s).op (decodeByte cfg s).after with
  | ok u => rw [settle_ok, execOpcode_mem hexec, decodeByte_after_mem]
  | error k => rfl

theorem dispatchWith_mem {cfg : Config} {op : Byte} {s t : State} (h : dispatchWith cfg op s = .next t) : t.mem = s.mem := by
  obtain ⟨-, ⟨k, -, rfl⟩ | ⟨u, hexec, rfl⟩⟩ := dispatchWith_cases h
  · rfl
  · rw [fitPc_mem, execOpcode_mem hexec]

theorem runSteps_mem (cfg : Config) (n : Nat) (s : State) : (runSteps cfg n s).mem = s.mem :=
  runSteps_keeps (P := fun t => t.mem = s.mem) (fun _ _ hu ht => (stepWith_mem ht).trans hu) n rfl

/-- Settles O44: each call keeps the memory, so a run leaves it as created, by `runSteps_keeps`. -/
theorem memoryIsNeverTouched : Obligations.MemoryIsNeverTouched := by
  refine ⟨fun cfg op s t h => ?_, fun cfg P s n hs => ?_⟩
  · have hmem : t.mem = s.mem := h.elim stepWith_mem dispatchWith_mem
    exact ⟨hmem, fun o => by rw [hmem]⟩
  · obtain ⟨-, rfl⟩ := construct_ok hs
    have hmem : (runSteps cfg n { State.reset with prog := P }).mem = Memory.empty := runSteps_mem cfg n _
    exact ⟨hmem, fun o => by rw [hmem, load_empty]⟩

end Sys2Proof.Machine

/-! PROOFS. The rest of 40_control.md and 42_push.md: PUSH1 at the end of the program (R132, R133), Dispatch opcode by opcode, the
pc advance of a Step (R109), the end of a run (R106, R108, R111), what a Step depends on (R60, R88). -/

namespace Sys2Proof

/-! ## PUSH1's opcode, with an immediate and without one -/

theorem decodeImm_nil_of_fault {cfg : Config} (h : cfg.truncPolicy = .fault) : decodeImm cfg [] = .error .truncatedImmediate := by
  rw [decodeImm, h]

theorem decodeImm_nil_of_zeroPad {cfg : Config} (h : cfg.truncPolicy = .zeroPad) : decodeImm cfg [] = .ok (0, []) := by
  rw [decodeImm, h]

/-- With four distinct opcode values PUSH1's decodes as its immediate does. -/
theorem decodeOpcode_opcPush1 {cfg : Config} (hcfg : cfg.OpcodesDistinct) (bytes : List Byte) :
    decodeOpcode cfg cfg.opcPush1 bytes = (decodeImm cfg bytes).map fun r => (.push1 r.1, r.2) := by
  obtain ⟨hstop, hadd, hmul⟩ := ne_opcPush1 hcfg
  rw [decodeOpcode, if_neg hstop.symm, if_neg hadd.symm, if_neg hmul.symm, if_pos rfl]
  cases decodeImm cfg bytes <;> rfl

/-- A decoded instruction is STOP exactly if its opcode byte is STOP's, for any opcode values: that value is compared first. -/
theorem decoded_eq_stop_iff {cfg : Config} {op : Byte} {bytes rest : List Byte} {i : Instr}
    (h : decodeOpcode cfg op bytes = .ok (i, rest)) : i = .stop ↔ op = cfg.opcStop := by
  constructor
  · rintro rfl
    exact (opcodeOf_decoded h).symm
  · rintro rfl
    rw [decodeOpcode, if_pos rfl] at h
    cases h
    rfl

/-- The length of a decoded instruction, by its opcode byte (R85). -/
theorem decoded_length {cfg : Config} (hcfg : cfg.OpcodesDistinct) {op : Byte} {bytes rest : List Byte} {i : Instr}
    (h : decodeOpcode cfg op bytes = .ok (i, rest)) : i.length = if op = cfg.opcPush1 then 2 else 1 := by
  have hlen := opcodeLength_opcodeOf hcfg i
  rw [opcodeOf_decoded h, opcodeLength] at hlen
  split_ifs at hlen ⊢ <;> exact (Option.some.inj hlen).symm

/-- Under the policy `fault`, bytes put after a sequence that decodes do not change what it decodes to. -/
theorem decode_append {cfg : Config} (hcfg : cfg.OpcodesDistinct) (hpolicy : cfg.truncPolicy = .fault) {bytes rest : List Byte}
    {i : Instr} (h : decode cfg bytes = .ok (i, rest)) (more : List Byte) :
    decode cfg (bytes ++ more) = .ok (i, rest ++ more) := by
  obtain rfl | ⟨hpad, -⟩ := decode_ok h
  · rw [List.append_assoc, decode_encode_append hcfg]
  · rw [hpolicy] at hpad
    cases hpad

end Sys2Proof

namespace Sys2Proof.Machine

/-! ## Exec of PUSH1's opcode -/

theorem execOpcode_push1_of_byte {cfg : Config} (hcfg : cfg.OpcodesDistinct) {s : State} {imm : Byte}
    (h : s.prog[s.pc]? = some imm) : execOpcode cfg cfg.opcPush1 s = push1Handler imm s :=
  execOpcode_opcodeOf hcfg (i := .push1 imm) (drop_pc_of_byte h)

/-- R132 (b). -/
theorem execOpcode_push1_of_zeroPad {cfg : Config} (hcfg : cfg.OpcodesDistinct) {s : State} (hend : s.prog.length ≤ s.pc)
    (hpolicy : cfg.truncPolicy = .zeroPad) : execOpcode cfg cfg.opcPush1 s = push1Handler 0 s := by
  have hdecode : decodeOpcode cfg cfg.opcPush1 (s.prog.drop s.pc) = .ok (.push1 0, []) := by
    rw [decodeOpcode_opcPush1 hcfg, List.drop_eq_nil_of_le hend, decodeImm_nil_of_zeroPad hpolicy]
    rfl
  exact execOpcode_of_decoded hdecode

/-- R132 (a). -/
theorem execOpcode_push1_of_fault {cfg : Config} (hcfg : cfg.OpcodesDistinct) {s : State} (hend : s.prog.length ≤ s.pc)
    (hpolicy : cfg.truncPolicy = .fault) : execOpcode cfg cfg.opcPush1 s = .error .truncatedImmediate := by
  have hdecode : decodeOpcode cfg cfg.opcPush1 (s.prog.drop s.pc) = .error .truncatedImmediate := by
    rw [decodeOpcode_opcPush1 hcfg, List.drop_eq_nil_of_le hend, decodeImm_nil_of_fault hpolicy]
    rfl
  exact execOpcode_of_raises hdecode

/-- Where PUSH1 finds an immediate or `zero_pad` gives one, Exec is its handler. -/
theorem execOpcode_push1_cases {cfg : Config} (hcfg : cfg.OpcodesDistinct) {s : State}
    (h : s.pc < s.prog.length ∨ cfg.truncPolicy = .zeroPad) : ∃ imm, execOpcode cfg cfg.opcPush1 s = push1Handler imm s := by
  by_cases hlt : s.pc < s.prog.length
  · exact ⟨_, execOpcode_push1_of_byte hcfg (List.getElem?_eq_getElem hlt)⟩
  · exact ⟨0, execOpcode_push1_of_zeroPad hcfg (Nat.not_lt.1 hlt) (h.resolve_left hlt)⟩

/-- Settles O19: past the opcode byte the counter is at the end, where R132 tells what Exec of PUSH1 does. -/
theorem truncatedImmediatePolicies : Obligations.TruncatedImmediatePolicies := by
  intro cfg hcfg s hrun hop hlast
  have hend : s.pastOpcode.prog.length ≤ s.pastOpcode.pc := hlast.le
  have hstep : stepWith cfg s = .next (settle s (execOpcode cfg cfg.opcPush1 s.pastOpcode)) := by
    rw [stepWith_eq_settle cfg hrun, decodeByte_at_byte cfg hop]
  rw [hstep, hlast]
  refine ⟨fun hfault => ?_, fun hpad hroom => ?_, fun hpad hfull => ?_⟩
  · rw [execOpcode_push1_of_fault hcfg hend hfault]
    rfl
  · rw [execOpcode_push1_of_zeroPad hcfg hend hpad, push1Handler_of_room (s := s.pastOpcode) 0 hroom]
    rfl
  · rw [execOpcode_push1_of_zeroPad hcfg hend hpad, push1Handler_of_full (s := s.pastOpcode) 0 hfull]
    rfl

/-! ## Dispatch, opcode by opcode -/

theorem narrow_eq_ofNat (n : Nat) : narrow n = BitVec.ofNat 256 n := BitVec.eq_of_toNat_eq (by simp [narrow])

/-- Dispatch of an opcode whose handler takes two operands: the result replaces them, the counter stays (R109). -/
theorem dispatchWith_of_two_on_top {cfg : Config} {op : Byte} {f : Word → Word → Word} {s : State}
    (hexec : execOpcode cfg op s = binaryHandler f s) (hrun : s.status = .running) {R : List Word} {a b : Word}
    (hS : s.stack = R ++ [b, a]) (hbound : s.stack.length ≤ 1024) :
    dispatchWith cfg op s = .next { s with stack := R ++ [f a b] } :=
  dispatchWith_of_pc_eq hrun (hexec.trans (binaryHandler_of_two_on_top f hS hbound)) rfl

/-- Dispatch of PUSH1 with room on the stack pushes the word, and moves the counter by one if its register can hold that (R133). -/
theorem dispatchWith_push1_of_room {cfg : Config} {s : State} {imm : Byte}
    (hexec : execOpcode cfg cfg.opcPush1 s = push1Handler imm s) (hrun : s.status = .running) (hroom : s.stack.length < 1024) :
    dispatchWith cfg cfg.opcPush1 s =
      .next (fitPc cfg s { s with pc := s.pc + 1, stack := s.stack ++ [zext256 imm] }) :=
  dispatchWith_of_completes hrun (hexec.trans (push1Handler_of_room imm hroom))

theorem dispatchWith_push1_fits {cfg : Config} {s : State} {imm : Byte}
    (hexec : execOpcode cfg cfg.opcPush1 s = push1Handler imm s) (hrun : s.status = .running) (hroom : s.stack.length < 1024)
    (hfits : s.pc + 1 < 2 ^ cfg.pcW) :
    dispatchWith cfg cfg.opcPush1 s = .next { s with pc := s.pc + 1, stack := s.stack ++ [zext256 imm] } := by
  rw [dispatchWith_push1_of_room hexec hrun hroom, fitPc_of_lt hfits]

/-- R30: the register of pc holds one more than the length of a program within its bound. -/
theorem length_succ_lt_of_wide {cfg : Config} (hwide : cfg.PcWide) {L : Nat} (hL : L ≤ cfg.progMaxLen) : L + 1 < 2 ^ cfg.pcW :=
  lt_of_lt_of_le (Nat.add_lt_add_right (Nat.lt_succ_of_le hL) 1) hwide

/-- Settles O27: one clause for each answer of Exec, as the next state of Dispatch. -/
theorem dispatchRunsAtTheCounter : Obligations.DispatchRunsAtTheCounter := by
  intro cfg hcfg s hrun
  have hadd : execOpcode cfg cfg.opcAdd s = binaryHandler addWord s := execOpcode_opcodeOf hcfg (i := .add) rfl
  have hmul : execOpcode cfg cfg.opcMul s = binaryHandler mulWord s := execOpcode_opcodeOf hcfg (i := .mul) rfl
  have hpad : s.prog.length ≤ s.pc → cfg.truncPolicy = .zeroPad → execOpcode cfg cfg.opcPush1 s = push1Handler 0 s :=
    execOpcode_push1_of_zeroPad hcfg
  refine ⟨?stop, fun R a b hS hbound => ⟨?add, ?mul⟩, fun hshort => ⟨?addShort, ?mulShort⟩, fun imm himm hroom hwide hprog => ?byte,
    fun himm hfull => ?full, fun hend hpolicy => ?truncated, fun hend hpolicy hroom hwide hprog => ?padded,
    fun hend hpolicy hroom hfits => ?beyond, fun hend hpolicy hroom htop => ?greatest, fun op hop => ?illegal⟩
  case stop => exact dispatchWith_of_pc_eq hrun (execOpcode_opcStop cfg s) rfl
  case add => rw [← narrow_eq_ofNat]; exact dispatchWith_of_two_on_top hadd hrun hS hbound
  case mul => rw [← narrow_eq_ofNat]; exact dispatchWith_of_two_on_top hmul hrun hS hbound
  case addShort => exact dispatchWith_of_raises hrun (hadd.trans (binaryHandler_of_short addWord hshort))
  case mulShort => exact dispatchWith_of_raises hrun (hmul.trans (binaryHandler_of_short mulWord hshort))
  case byte =>
    have hlt : s.pc < s.prog.length := (List.getElem?_eq_some_iff.1 himm).1
    have hfits : s.pc + 1 < 2 ^ cfg.pcW := lt_trans (Nat.succ_lt_succ hlt) (length_succ_lt_of_wide hwide hprog)
    exact dispatchWith_push1_fits (execOpcode_push1_of_byte hcfg himm) hrun hroom hfits
  case full =>
    obtain ⟨imm, hexec⟩ := execOpcode_push1_cases hcfg himm
    exact dispatchWith_of_raises hrun (hexec.trans (push1Handler_of_full imm hfull))
  case truncated => exact dispatchWith_of_raises hrun (execOpcode_push1_of_fault hcfg hend hpolicy)
  case padded =>
    rw [← hend] at hprog ⊢
    exact dispatchWith_push1_fits (hpad hend.ge hpolicy) hrun hroom (length_succ_lt_of_wide hwide hprog)
  case beyond => exact dispatchWith_push1_fits (hpad hend.le hpolicy) hrun hroom hfits
  case greatest =>
    rw [dispatchWith_push1_of_room (hpad hend.le hpolicy) hrun hroom, fitPc, if_neg htop.not_lt]
    rfl
  case illegal => exact dispatchWith_of_raises hrun (execOpcode_of_raises (decodeOpcode_invalid_iff.2 hop))

/-! ## Step: the placed word, the counter, the halted flag -/

/-- What is placed at the counter stands there, and then come the bytes that stood after it. -/
theorem drop_placeBytes (prog bytes : List Byte) (p : Nat) :
    (placeBytes prog p bytes).drop p = bytes ++ prog.drop (p + bytes.length) := by
  have hlen : (prog.take p ++ List.replicate (p - prog.length) 0).length = p := by simp; omega
  exact List.drop_left' hlen

/-- Settles O24: the placed bytes decode to the table word's instruction, whatever stands after them. -/
theorem placedWordRunsNext : Obligations.PlacedWordRunsNext := by
  intro s nbits w i hw
  obtain ⟨rest, hdecode⟩ : ∃ rest, decode Config.core (tableBytes Config.core nbits w) = .ok (i, rest) := by
    unfold decodeTableWord at hw
    split at hw
    · next j rest hdecode => cases hw; exact ⟨rest, hdecode⟩
    · cases hw
  have hplaced := decode_append core_valid.1 rfl hdecode (s.prog.drop (s.pc + (tableBytes Config.core nbits w).length))
  rw [← drop_placeBytes] at hplaced
  exact stepWith_of_decoded (s := s.withFetchWord nbits w) rfl hplaced

/-- The byte at the counter is the opcode of what decodes there. -/
theorem exists_byte_of_decode_ok {cfg : Config} {s : State} {i : Instr} {rest : List Byte}
    (h : decode cfg (s.prog.drop s.pc) = .ok (i, rest)) :
    ∃ op bytes, s.prog[s.pc]? = some op ∧ decodeOpcode cfg op bytes = .ok (i, rest) := by
  cases hdrop : s.prog.drop s.pc with
  | nil => rw [hdrop] at h; cases h
  | cons op bytes => rw [hdrop] at h; exact ⟨op, bytes, byte_of_drop_pc hdrop, decode_cons_ok.1 h⟩

theorem exists_byte_of_decode_raises {cfg : Config} {s : State} {k : FaultKind}
    (h : decode cfg (s.prog.drop s.pc) = .error (.raises k)) :
    ∃ op bytes, s.prog[s.pc]? = some op ∧ decodeOpcode cfg op bytes = .error k := by
  cases hdrop : s.prog.drop s.pc with
  | nil => rw [hdrop] at h; cases h
  | cons op bytes => rw [hdrop] at h; exact ⟨op, bytes, byte_of_drop_pc hdrop, decode_cons_raises.1 h⟩

theorem lt_length_of_byte {s : State} {b : Byte} (h : s.prog[s.pc]? = some b) : ¬ s.prog.length ≤ s.pc :=
  Nat.not_le.2 (List.getElem?_eq_some_iff.1 h).1

/-- Settles O28: a handler that completes has moved past its instruction, whose length the byte at the counter tells. -/
theorem pcAdvanceOfAStep : Obligations.PcAdvanceOfAStep := by
  intro cfg hcfg s t h
  obtain ⟨hrun, ⟨hend, rfl⟩ | ⟨i, rest, hdecode, rfl⟩ | ⟨k, -, rfl⟩⟩ := stepWith_cases h
  · simp [hend]
  · cases hhandler : handlerOf i s.pastOpcode with
    | error k => simp
    | ok u =>
      obtain ⟨op, bytes, hbyte, hop⟩ := exists_byte_of_decode_ok hdecode
      have hne : u.status ≠ .faulted := handlerOf_status_ne_faulted hhandler hrun
      have hlen := decoded_length hcfg hop
      have hpc : u.pc + 1 = s.pc + 1 + i.length := handlerOf_pc hhandler
      simp only [settle_ok, hne, lt_length_of_byte hbyte, or_self, if_false, hbyte, Option.some.injEq]
      split_ifs at hlen ⊢ <;> omega
  · simp

theorem haltedFlag_iff (s : State) : s.haltedFlag = true ↔ s.status = .halted := by simp [State.haltedFlag]

/-- Settles O33: Halted is the implicit halt, or the status that STOP's handler alone writes. -/
theorem haltedFlagAfterAStep : Obligations.HaltedFlagAfterAStep := by
  intro cfg s t h
  rw [haltedFlag_iff]
  obtain ⟨hrun, ⟨hend, rfl⟩ | ⟨i, rest, hdecode, rfl⟩ | ⟨k, hdecode, rfl⟩⟩ := stepWith_cases h
  · simp [hend]
  · obtain ⟨op, bytes, hbyte, hop⟩ := exists_byte_of_decode_ok hdecode
    have hnotend := lt_length_of_byte hbyte
    cases hhandler : handlerOf i s.pastOpcode with
    | error k =>
      have hi : i ≠ .stop := by rintro rfl; cases hhandler
      simp [hnotend, hbyte, ← decoded_eq_stop_iff hop, hi]
    | ok u =>
      have hstatus := handlerOf_status hhandler
      by_cases hi : i = .stop
      · simp [hnotend, hbyte, ← decoded_eq_stop_iff hop, hstatus, hi]
      · simp [hnotend, hbyte, ← decoded_eq_stop_iff hop, hstatus, hi, hrun]
  · obtain ⟨op, bytes, hbyte, hop⟩ := exists_byte_of_decode_raises hdecode
    have hne : op ≠ cfg.opcStop := by rintro rfl; rw [decodeOpcode, if_pos rfl] at hop; cases hop
    simp [lt_length_of_byte hbyte, hbyte, hne]

/-! ## The end of a run -/

theorem runSteps_of_ended {cfg : Config} {s : State} (h : s.status ≠ .running) (n : Nat) : runSteps cfg n s = s := by
  cases n with
  | zero => rfl
  | succ n =>
    rw [runSteps]
    split
    · next ht => exact absurd ht (stepWith_of_ended cfg h)
    · rfl
    · rfl

theorem runSteps_of_next {cfg : Config} {s t : State} (h : stepWith cfg s = .next t) (n : Nat) :
    runSteps cfg (n + 1) s = runSteps cfg n t := by
  rw [runSteps, h]

theorem run_of_ended {cfg : Config} {s : State} (h : s.status ≠ .running) : run cfg s = s := runSteps_of_ended h _

/-- Settles O30: every call looks at the status first. -/
theorem endedRunHasNoTransition : Obligations.EndedRunHasNoTransition := by
  intro cfg op s
  have hrun : s.status ≠ .running → run cfg s = s := run_of_ended
  constructor
  · intro h
    simp [stepWith, dispatchWith, stepResult, dispatchResult, runResult, outcomeOf, hrun, h]
  · intro h
    simp [stepWith, dispatchWith, stepResult, dispatchResult, runResult, outcomeOf, hrun, h]

/-- A Step ends the run or moves the counter, which stood below the end (R105, R109). -/
theorem stepWith_progress {cfg : Config} {s t : State} (h : stepWith cfg s = .next t) (ht : t.status = .running) :
    s.pc < s.prog.length ∧ s.pc + 1 ≤ t.pc := by
  obtain ⟨-, ⟨-, rfl⟩ | ⟨i, rest, hdecode, rfl⟩ | ⟨k, -, rfl⟩⟩ := stepWith_cases h
  · cases ht
  · obtain ⟨op, bytes, hbyte, -⟩ := exists_byte_of_decode_ok hdecode
    cases hhandler : handlerOf i s.pastOpcode with
    | error k => rw [hhandler] at ht; cases ht
    | ok u =>
      have hpc : u.pc + 1 = s.pc + 1 + i.length := handlerOf_pc hhandler
      have hlen := i.one_le_length
      exact ⟨Nat.not_le.1 (lt_length_of_byte hbyte), by rw [settle_ok]; omega⟩
  · cases ht

/-- The bytes from the counter on bound the Steps that are left, one more for the implicit halt (R111). -/
theorem runSteps_ends (cfg : Config) {n : Nat} {s : State} (hn : s.prog.length - s.pc < n) :
    (runSteps cfg n s).status ≠ .running := by
  induction n generalizing s with
  | zero => omega
  | succ n ih =>
    by_cases hrun : s.status = .running
    · have hnext := stepWith_eq_settle cfg hrun
      rw [runSteps_of_next hnext]
      by_cases ht : (settle s (execOpcode cfg (decodeByte cfg s).op (decodeByte cfg s).after)).status = .running
      · obtain ⟨hlt, hmove⟩ := stepWith_progress hnext ht
        exact ih (by rw [stepWith_prog hnext]; omega)
      · rwa [runSteps_of_ended ht]
    · rwa [runSteps_of_ended hrun]

/-- A run of Steps can be cut in two. -/
theorem runSteps_add (cfg : Config) (m n : Nat) (s : State) : runSteps cfg (m + n) s = runSteps cfg n (runSteps cfg m s) := by
  induction m generalizing s with
  | zero => rw [Nat.zero_add, runSteps]
  | succ m ih =>
    by_cases hrun : s.status = .running
    · have hnext := stepWith_eq_settle cfg hrun
      rw [Nat.add_right_comm, runSteps_of_next hnext, runSteps_of_next hnext, ih]
    · rw [runSteps_of_ended hrun, runSteps_of_ended hrun, runSteps_of_ended hrun]

theorem run_ends (cfg : Config) (s : State) : (run cfg s).status ≠ .running :=
  runSteps_ends cfg (Nat.lt_succ_of_le (Nat.sub_le _ _))

theorem outcomeOf_isSome {s : State} (h : s.status ≠ .running) : (outcomeOf s).isSome = true := by
  cases hs : s.status with
  | running => exact absurd hs h
  | halted => simp [outcomeOf, hs]
  | faulted => simp [outcomeOf, hs]

/-- Settles O31: after L + 1 Steps the run has ended, and further Steps find no transition. -/
theorem runEndsWithinItsBound : Obligations.RunEndsWithinItsBound := by
  refine fun cfg s => ⟨run_ends cfg s, outcomeOf_isSome (run_ends cfg s), fun n hn => ?_⟩
  obtain ⟨d, rfl⟩ := Nat.exists_eq_add_of_le hn
  rw [runSteps_add]
  exact runSteps_of_ended (run_ends cfg s) d

/-! ## What a Step depends on -/

/-- The state with another program buffer and another memory: what the handlers neither read nor write. -/
def State.withStores (s : State) (p : List Byte) (m : Memory) : State := { s with prog := p, mem := m }

@[simp] theorem State.withStores_prog (s : State) (p : List Byte) (m : Memory) : (s.withStores p m).prog = p := rfl
@[simp] theorem State.withStores_pc (s : State) (p : List Byte) (m : Memory) : (s.withStores p m).pc = s.pc := rfl
@[simp] theorem State.withStores_status (s : State) (p : List Byte) (m : Memory) : (s.withStores p m).status = s.status := rfl
@[simp] theorem State.withStores_fault (s : State) (p : List Byte) (m : Memory) : (s.withStores p m).fault = s.fault := rfl
@[simp] theorem State.withStores_stack (s : State) (p : List Byte) (m : Memory) : (s.withStores p m).stack = s.stack := rfl

theorem binaryHandler_withStores (f : Word → Word → Word) (s : State) (p : List Byte) (m : Memory) :
    binaryHandler f (s.withStores p m) = (binaryHandler f s).map (·.withStores p m) := by
  simp only [binaryHandler, State.withStores_stack]
  cases popTwo s.stack with
  | error k => rfl
  | ok operands =>
    obtain ⟨a, b, R⟩ := operands
    dsimp only
    cases push (f a b) R <;> rfl

/-- No handler reads or writes the program buffer or the memory: PUSH1's immediate is the decoder's (R60, R68). -/
theorem handlerOf_withStores (i : Instr) (s : State) (p : List Byte) (m : Memory) :
    handlerOf i (s.withStores p m) = (handlerOf i s).map (·.withStores p m) := by
  cases i with
  | stop => rfl
  | add => exact binaryHandler_withStores addWord s p m
  | mul => exact binaryHandler_withStores mulWord s p m
  | push1 imm =>
    simp only [handlerOf, push1Handler, State.withStores_stack]
    cases push (zext256 imm) s.stack <;> rfl

theorem settle_withStores (s : State) (r : Except FaultKind State) (p : List Byte) (m : Memory) :
    settle (s.withStores p m) (r.map (·.withStores p m)) = (settle s r).withStores p m := by
  cases r <;> rfl

/-- What a Step does, given what the decoder finds at the counter. -/
def transactionOf (s : State) : Except Reject Instr → State
  | .ok i => settle s (handlerOf i s.pastOpcode)
  | .error .endOfProgram => s.setStatus .halted
  | .error (.raises k) => enterFault k s

/-- What the decoder finds at the front of the bytes, without what it leaves. -/
def decodedHead (cfg : Config) (bytes : List Byte) : Except Reject Instr := (decode cfg bytes).map Prod.fst

theorem stepWith_eq_transactionOf (cfg : Config) {s : State} (hrun : s.status = .running) :
    stepWith cfg s = .next (transactionOf s (decodedHead cfg (s.prog.drop s.pc))) := by
  rw [stepWith_of_running cfg hrun, stepRunning, decodedHead]
  cases decode cfg (s.prog.drop s.pc) with
  | ok r => exact exec_eq r.1 s
  | error e => cases e <;> rfl

theorem transactionOf_withStores (s : State) (found : Except Reject Instr) (p : List Byte) (m : Memory) :
    transactionOf (s.withStores p m) found = (transactionOf s found).withStores p m := by
  cases found with
  | ok i =>
    have hhandler := handlerOf_withStores i s.pastOpcode p m
    exact (congrArg (settle (s.withStores p m)) hhandler).trans (settle_withStores s _ p m)
  | error e => cases e <;> rfl

/-- A Step depends on the program by what decodes at the counter, and on the memory not at all. -/
theorem stepWith_withStores {cfg : Config} {s t : State} {p : List Byte} (m : Memory)
    (hp : decodedHead cfg (p.drop s.pc) = decodedHead cfg (s.prog.drop s.pc)) (h : stepWith cfg s = .next t) :
    stepWith cfg (s.withStores p m) = .next (t.withStores p m) := by
  have hrun : s.status = .running := (stepWith_next h).1
  rw [stepWith_eq_transactionOf cfg hrun] at h
  cases h
  rw [stepWith_eq_transactionOf cfg (s := s.withStores p m) hrun, State.withStores_prog, State.withStores_pc, hp,
    transactionOf_withStores]

/-- Settles O45: the memory is written with the program buffer kept; where there is no transition the status and the fault
register alone say so. -/
theorem memoryHasNoInfluence : Obligations.MemoryHasNoInfluence := by
  refine fun cfg s m => ⟨fun t h => ?_, fun f h => ?_⟩
  · have hprog : t.withStores s.prog m = { t with mem := m } := by rw [← stepWith_prog h]; rfl
    rw [← hprog]
    exact stepWith_withStores m rfl h
  · have hended : s.status ≠ .running := fun hrun => by rw [stepWith_eq_settle cfg hrun] at h; cases h
    rw [stepWith] at h ⊢
    cases hs : s.status with
    | running => exact absurd hs hended
    | halted => rw [hs] at h; exact h
    | faulted => rw [hs] at h; exact h

theorem decodeImm_fst_congr (cfg : Config) {bytes bytes' : List Byte} (h : bytes'[0]? = bytes[0]?) :
    (decodeImm cfg bytes').map Prod.fst = (decodeImm cfg bytes).map Prod.fst := by
  cases bytes with
  | nil =>
    obtain rfl : bytes' = [] := by simpa using h
    rfl
  | cons imm rest =>
    cases bytes' with
    | nil => cases h
    | cons imm' rest' => cases h; rfl

/-- The instruction of an opcode byte depends on the next byte for PUSH1 alone (R82, R85). -/
theorem decodeOpcode_fst_congr {cfg : Config} {op : Byte} {bytes bytes' : List Byte}
    (h : op = cfg.opcPush1 → bytes'[0]? = bytes[0]?) :
    (decodeOpcode cfg op bytes').map Prod.fst = (decodeOpcode cfg op bytes).map Prod.fst := by
  unfold decodeOpcode
  split_ifs with _ _ _ hop
  · rfl
  · rfl
  · rfl
  · have himm := congrArg (Except.map Instr.push1) (decodeImm_fst_congr cfg (h hop))
    revert himm
    cases decodeImm cfg bytes <;> cases decodeImm cfg bytes' <;> exact id
  · rfl

theorem decodedHead_cons (cfg : Config) (op : Byte) (bytes : List Byte) :
    decodedHead cfg (op :: bytes) = ((decodeOpcode cfg op bytes).map Prod.fst).mapError Reject.raises := by
  rw [decodedHead, decode]
  cases decodeOpcode cfg op bytes <;> rfl

/-- What decodes first depends on the first byte, and on the second where the first is PUSH1's opcode (R88). -/
theorem decodedHead_congr {cfg : Config} {bytes bytes' : List Byte} (hfirst : bytes'[0]? = bytes[0]?)
    (hsecond : bytes[0]? = some cfg.opcPush1 → bytes'[1]? = bytes[1]?) : decodedHead cfg bytes' = decodedHead cfg bytes := by
  cases bytes with
  | nil =>
    obtain rfl : bytes' = [] := by simpa using hfirst
    rfl
  | cons op rest =>
    cases bytes' with
    | nil => cases hfirst
    | cons op' rest' =>
      cases hfirst
      rw [decodedHead_cons, decodedHead_cons, decodeOpcode_fst_congr fun hop => hsecond (congrArg some hop)]

/-- Settles O46: the program is written with the memory kept, and the same instruction decodes. -/
theorem onlyTheFetchedBytesMatter : Obligations.OnlyTheFetchedBytesMatter := by
  intro cfg s t p hfirst hsecond h
  have hmem : t.withStores p s.mem = { t with prog := p } := by rw [← stepWith_mem h]; rfl
  rw [← hmem]
  exact stepWith_withStores s.mem (decodedHead_congr (by simpa using hfirst) (by simpa using hsecond)) h

end Sys2Proof.Machine

/-! PROOFS. The invariants of 10_state.md and 20_memory.md: at construction (R171), over Step, Dispatch and sessions (R22, R32, R36,
R53, R54), and what they say of the end of a run (R179) and of the register of pc (R30). -/

namespace Sys2Proof.Machine

/-! ## Construction -/

theorem construct_of_le {cfg : Config} {P : List Byte} (h : P.length ≤ cfg.progMaxLen) :
    construct cfg P = .ok { State.reset with prog := P } := if_pos h

/-- Settles O38: the two branches of Construct. -/
theorem constructSetsEveryElement : Obligations.ConstructSetsEveryElement :=
  fun _ _ => ⟨construct_of_le, fun hlong => if_neg (Nat.not_le.2 hlong)⟩

theorem inv_of_placed {cfg : Config} {P : List Byte} (h : P.length ≤ cfg.progMaxLen) : Inv cfg { State.reset with prog := P } where
  stackBound := Nat.zero_le _
  faultIff := by simp [State.reset]
  faultLevel := by simp [State.reset]
  memWf := empty_wf
  memFits := Nat.zero_le _
  progBound := h
  pcRange := Nat.zero_le _

theorem inv_of_constructed {cfg : Config} {P : List Byte} {s : State} (h : construct cfg P = .ok s) : Inv cfg s := by
  obtain ⟨hlen, rfl⟩ := construct_ok h
  exact inv_of_placed hlen

/-- Settles O39: the reset state is the one constructed with the empty program. -/
theorem resetMeetsTheInvariants : Obligations.ResetMeetsTheInvariants :=
  ⟨inv_of_placed (P := []) (Nat.zero_le _), fun _ _ _ => inv_of_constructed⟩

/-! ## The invariants, the range of pc apart -/

theorem Legal.fault_of_running {cfg : Config} {s : State} (h : Legal cfg s) (hrun : s.status = .running) : s.fault = none := by
  by_contra hfault
  rw [h.faultIff.1 hfault] at hrun
  cases hrun

theorem Legal.withPc {cfg : Config} {s : State} (h : Legal cfg s) (p : Nat) : Legal cfg (s.setPc p) :=
  ⟨h.stackBound, h.faultIff, h.faultLevel, h.memWf, h.memFits, h.progBound⟩

theorem Legal.withFittedPc {cfg : Config} {t : State} (h : Legal cfg t) (s : State) : Legal cfg (fitPc cfg s t) := by
  unfold fitPc
  split
  · exact h
  · exact h.withPc _

theorem Legal.afterFault {cfg : Config} {s : State} (h : Legal cfg s) {k : FaultKind} (hk : k.runLevel = true) :
    Legal cfg (enterFault k s) where
  stackBound := h.stackBound
  faultIff := by simp
  faultLevel := by
    rintro k' hk'
    cases hk'
    exact hk
  memWf := h.memWf
  memFits := h.memFits
  progBound := h.progBound

/-- A handler that completes from a legal state in Running leaves a legal state. -/
theorem Legal.afterHandler {cfg : Config} {s t : State} {i : Instr} (h : Legal cfg s) (hrun : s.status = .running)
    (ht : handlerOf i s = .ok t) : Legal cfg t where
  stackBound := handlerOf_stack_bound ht h.stackBound
  faultIff := by
    rw [handlerOf_fault ht, h.fault_of_running hrun]
    exact iff_of_false (· rfl) (handlerOf_status_ne_faulted ht hrun)
  faultLevel := by rw [handlerOf_fault ht]; exact h.faultLevel
  memWf := by rw [handlerOf_mem ht]; exact h.memWf
  memFits := by rw [handlerOf_mem ht]; exact h.memFits
  progBound := by rw [handlerOf_prog ht]; exact h.progBound

theorem Legal.afterExec {cfg : Config} {s t : State} {op : Byte} (h : Legal cfg s) (hrun : s.status = .running)
    (ht : execOpcode cfg op s = .ok t) : Legal cfg t := by
  obtain ⟨i, rest, -, hi⟩ := execOpcode_ok ht
  exact h.afterHandler hrun hi

theorem Legal.afterDecode {cfg : Config} {s : State} (h : Legal cfg s) : Legal cfg (decodeByte cfg s).after := by
  obtain hafter | hafter := decodeByte_after_cases cfg s
  · rwa [hafter]
  · rw [hafter]
    exact h.withPc _

theorem Legal.afterStep {cfg : Config} {s t : State} (h : Legal cfg s) (ht : stepWith cfg s = .next t) : Legal cfg t := by
  obtain ⟨hrun, rfl⟩ := stepWith_next ht
  cases hexec : execOpcode cfg (decodeByte cfg s).op (decodeByte cfg s).after with
  | ok u => exact h.afterDecode.afterExec ((decodeByte_after_status cfg s).trans hrun) hexec
  | error k => exact h.afterFault (execOpcode_error_runLevel hexec)

theorem Legal.afterDispatch {cfg : Config} {op : Byte} {s t : State} (h : Legal cfg s) (ht : dispatchWith cfg op s = .next t) :
    Legal cfg t := by
  obtain ⟨hrun, ⟨k, hexec, rfl⟩ | ⟨u, hexec, rfl⟩⟩ := dispatchWith_cases ht
  · exact h.afterFault (execOpcode_error_runLevel hexec)
  · exact (h.afterExec hrun hexec).withFittedPc s

/-! ## The range of pc -/

theorem le_pcLimit (cfg : Config) (L : Nat) : L ≤ pcLimit cfg L := by
  unfold pcLimit
  split <;> omega

theorem pcLimit_le (cfg : Config) (L : Nat) : pcLimit cfg L ≤ L + 1 := by
  unfold pcLimit
  split <;> omega

theorem pcLimit_of_zeroPad {cfg : Config} (h : cfg.truncPolicy = .zeroPad) (L : Nat) : pcLimit cfg L = L + 1 := by
  rw [pcLimit, h]

theorem length_encode (cfg : Config) (i : Instr) : (encode cfg i).length = i.length := by cases i <;> rfl

/-- An instruction that decodes at the counter ends within the program, or one byte after it where `zero_pad` gives the byte. -/
theorem pc_add_length_le_pcLimit {cfg : Config} {prog rest : List Byte} {p : Nat} {i : Instr}
    (h : decode cfg (prog.drop p) = .ok (i, rest)) : p + i.length ≤ pcLimit cfg prog.length := by
  have hmin := i.one_le_length
  obtain hbytes | ⟨hpolicy, hbytes, rfl, -⟩ := decode_ok h
  · have hlen := congrArg List.length hbytes
    rw [List.length_append, length_encode, List.length_drop] at hlen
    exact le_trans (by omega) (le_pcLimit cfg prog.length)
  · have hlen := congrArg List.length hbytes
    rw [List.length_singleton, List.length_drop] at hlen
    rw [pcLimit_of_zeroPad hpolicy, Instr.length]
    omega

/-- A Step leaves pc where it was, or past an instruction that decoded (R109). -/
theorem stepWith_pc {cfg : Config} {s t : State} (h : stepWith cfg s = .next t) :
    t.pc = s.pc ∨ t.pc ≤ pcLimit cfg s.prog.length := by
  obtain ⟨-, ⟨-, rfl⟩ | ⟨i, rest, hdecode, rfl⟩ | ⟨k, -, rfl⟩⟩ := stepWith_cases h
  · exact .inl rfl
  · obtain hpc | hpc := settle_handlerOf_pc i s
    · exact .inr (hpc ▸ pc_add_length_le_pcLimit hdecode)
    · exact .inl hpc
  · exact .inl rfl

/-- Every Step keeps the invariants, under any parameters. -/
theorem Inv.afterStep {cfg : Config} {s t : State} (h : Inv cfg s) (ht : stepWith cfg s = .next t) : Inv cfg t where
  toLegal := h.toLegal.afterStep ht
  pcRange := by
    rw [stepWith_prog ht]
    obtain hpc | hpc := stepWith_pc ht
    · exact hpc ▸ h.pcRange
    · exact hpc

/-- Settles O40: the core's step is a Step with the core's parameters. -/
theorem everyStepKeepsTheInvariants : Obligations.EveryStepKeepsTheInvariants := fun _ _ h hs => h.afterStep hs

/-- Exec leaves pc in range, but for PUSH1 past the end under `zero_pad` (R132). -/
theorem execOpcode_pc_le_pcLimit {cfg : Config} {op : Byte} {s t : State} (h : execOpcode cfg op s = .ok t)
    (hcall : cfg.truncPolicy = .fault ∨ s.pc ≤ s.prog.length ∨ op ≠ cfg.opcPush1) :
    t.pc = s.pc ∨ t.pc ≤ pcLimit cfg s.prog.length := by
  obtain hpc | ⟨hop, hpc, hlt | hpad⟩ := execOpcode_pc h
  · exact .inl hpc
  · exact .inr (hpc ▸ le_trans hlt (le_pcLimit cfg s.prog.length))
  · obtain hfault | hle | hne := hcall
    · rw [hfault] at hpad
      cases hpad
    · exact .inr (by rw [hpc, pcLimit_of_zeroPad hpad]; omega)
    · exact absurd hop hne

/-- A Dispatch keeps the invariants, but for PUSH1's past the end under `zero_pad` (log 3). -/
theorem Inv.afterDispatch {cfg : Config} {op : Byte} {s t : State} (h : Inv cfg s)
    (hcall : cfg.truncPolicy = .fault ∨ s.pc ≤ s.prog.length ∨ op ≠ cfg.opcPush1) (ht : dispatchWith cfg op s = .next t) :
    Inv cfg t where
  toLegal := h.toLegal.afterDispatch ht
  pcRange := by
    rw [dispatchWith_prog ht]
    obtain ⟨-, ⟨k, -, rfl⟩ | ⟨u, hexec, rfl⟩⟩ := dispatchWith_cases ht
    · exact h.pcRange
    · have hpc := execOpcode_pc_le_pcLimit hexec hcall
      have hs := h.pcRange
      rw [fitPc_pc]
      split <;> omega

/-- Settles O41: the call lemmas, and for the sessions their induction `callAll_keeps`. -/
theorem everyCallKeepsTheInvariants : Obligations.EveryCallKeepsTheInvariants := by
  refine ⟨fun cfg s s' => Inv.afterStep, fun cfg s s' op hcall h => h.afterDispatch hcall,
    fun cfg s s' op h hnext => hnext.elim h.afterStep h.afterDispatch, fun cfg P s calls hs => ⟨?_, fun hcalls => ?_⟩⟩
  · exact callAll_keeps (P := Legal cfg) (fun _ _ h => h.afterStep) calls (fun _ _ _ _ h => h.afterDispatch)
      (inv_of_constructed hs).toLegal
  · refine callAll_keeps (P := Inv cfg) (fun _ _ h => h.afterStep) calls (fun op hop u t h => h.afterDispatch ?_)
      (inv_of_constructed hs)
    exact hcalls.imp_right fun hnone => .inr fun hpush => hnone (hpush ▸ hop)

/-! ## The register of pc -/

theorem pcLimit_lt_of_valid {cfg : Config} (hcfg : cfg.Valid) {L : Nat} (hL : L ≤ cfg.progMaxLen) : pcLimit cfg L < 2 ^ cfg.pcW :=
  lt_of_le_of_lt (pcLimit_le cfg L) (length_succ_lt_of_wide hcfg.2.1 hL)

theorem stepWith_pc_lt {cfg : Config} (hcfg : cfg.Valid) {s t : State} (hprog : s.prog.length ≤ cfg.progMaxLen)
    (hs : s.pc < 2 ^ cfg.pcW) (h : stepWith cfg s = .next t) : t.pc < 2 ^ cfg.pcW := by
  obtain hpc | hpc := stepWith_pc h
  · exact hpc ▸ hs
  · exact lt_of_le_of_lt hpc (pcLimit_lt_of_valid hcfg hprog)

/-- The register write of Dispatch leaves a pc that the register holds (R30, log 3). -/
theorem dispatchWith_pc_lt {cfg : Config} {op : Byte} {s t : State} (hs : s.pc < 2 ^ cfg.pcW)
    (h : dispatchWith cfg op s = .next t) : t.pc < 2 ^ cfg.pcW := by
  obtain ⟨-, ⟨k, -, rfl⟩ | ⟨u, -, rfl⟩⟩ := dispatchWith_cases h
  · exact hs
  · rw [fitPc_pc]
    split
    · next hfits => exact hfits
    · exact hs

/-- Settles O42: R30's width holds the range of pc, a Step stays in that range or where it was, and a Dispatch writes what fits. -/
theorem pcFitsItsRegister : Obligations.PcFitsItsRegister := by
  refine ⟨fun cfg s hcfg h => lt_of_le_of_lt h.pcRange (pcLimit_lt_of_valid hcfg h.progBound), fun cfg s hs => ?_,
    fun cfg s s' op hcfg hprog hs h => h.elim (stepWith_pc_lt hcfg hprog hs) (dispatchWith_pc_lt hs),
    fun cfg P s calls hcfg hs => ?_⟩
  · rw [State.pcReg, BitVec.toNat_ofNat, Nat.mod_eq_of_lt hs]
  · obtain ⟨hlen, rfl⟩ := construct_ok hs
    refine (callAll_keeps (P := fun t => t.prog.length ≤ cfg.progMaxLen ∧ t.pc < 2 ^ cfg.pcW) ?_ calls ?_
      ⟨hlen, Nat.two_pow_pos cfg.pcW⟩).2
    · exact fun u t hu h => ⟨(stepWith_prog h).symm ▸ hu.1, stepWith_pc_lt hcfg hu.1 hu.2 h⟩
    · exact fun op _ u t hu h => ⟨(dispatchWith_prog h).symm ▸ hu.1, dispatchWith_pc_lt hu.2 h⟩

/-! ## How a run ends, and the output codes -/

/-- Settles O32: the run has ended, and the invariants tell the fault register in each of the two end states. -/
theorem runEndsHaltedOrFaulted : Obligations.RunEndsHaltedOrFaulted := by
  intro cfg P s hs
  have hlegal : Legal cfg (run cfg s) :=
    runSteps_keeps (P := Legal cfg) (fun _ _ h => h.afterStep) _ (inv_of_constructed hs).toLegal
  cases hstatus : (run cfg s).status with
  | running => exact absurd hstatus (run_ends cfg s)
  | halted =>
    have hfault : (run cfg s).fault = none := by
      by_contra hfault
      rw [hlegal.faultIff.1 hfault] at hstatus
      cases hstatus
    exact .inl ⟨⟨hstatus, hfault⟩, by rw [runResult, outcomeOf, hstatus]⟩
  | faulted =>
    obtain ⟨k, hk⟩ := Option.ne_none_iff_exists'.1 (hlegal.faultIff.2 hstatus)
    exact .inr ⟨k, hlegal.faultLevel k hk, rfl, hk, by rw [runResult, outcomeOf, hstatus, hk]⟩

/-- The code that a content of the fault register is read out as (R140). -/
def codeOfFault : Option FaultKind → BitVec 3
  | none => 0
  | some k => k.code

theorem faultCode_eq (s : State) : s.faultCode = codeOfFault s.fault := by
  rw [State.faultCode]
  cases s.fault <;> rfl

/-- The content of the fault register that a code stands for: the table of R140, by its numbers. -/
def faultOfCode (c : BitVec 3) : Option FaultKind :=
  [none, some .stackOverflow, some .stackUnderflow, some .invalidOpcode, some .truncatedImmediate, some .invalidAccess,
    some .invalidValue].getD c.toNat none

theorem faultOfCode_codeOfFault : Function.LeftInverse faultOfCode codeOfFault
  | none => rfl
  | some k => by cases k <;> rfl

theorem codeOfFault_ne_seven : ∀ f : Option FaultKind, codeOfFault f ≠ 7
  | none => by decide
  | some k => by cases k <;> decide

/-- The status that a code stands for (R34). -/
def statusOfCode (c : BitVec 2) : Status := [.running, .halted, .faulted].getD c.toNat .running

theorem statusOfCode_code : Function.LeftInverse statusOfCode Status.code := fun st => by cases st <;> rfl

theorem faultCode_eq_iff (s t : State) : s.faultCode = t.faultCode ↔ s.fault = t.fault := by
  rw [faultCode_eq, faultCode_eq, faultOfCode_codeOfFault.injective.eq_iff]

/-- Settles O36: the codes are told apart by the table read backwards, and each is a closed value. -/
theorem outputCodes : Obligations.OutputCodes := by
  refine ⟨faultCode_eq_iff, fun s => ?_, fun s => ?_, rfl, rfl, fun st => ?_⟩
  · rw [faultCode_eq]
    exact codeOfFault_ne_seven s.fault
  · exact faultCode_eq_iff s State.reset
  · cases st <;> decide

end Sys2Proof.Machine

/-! PROOFS. The ports of the memory (R54 to R58, D15) and its register (R53), and the debug read-out (R40, D23). -/

namespace Sys2Proof.Machine

/-! ## The store and load ports -/

/-- Settles O50: InvalidAccess is checked first (R145), then InvalidValue. -/
theorem storeOutcome : Obligations.StoreOutcome := by
  refine fun cfg m o v => ⟨fun ho => if_neg (Nat.not_lt.2 ho), fun ho hv => ?_, store_succeeds m⟩
  rw [Memory.store, if_pos ho, if_neg (Nat.not_lt.2 hv)]

/-- Settles O52, by reading after a write in canonical form. -/
theorem loadAfterStore : Obligations.LoadAfterStore := fun _ _ _ _ _ hm h => load_store hm h

/-- Settles O55: the stores after the last successful one to an offset leave what it loads. -/
theorem loadReturnsTheLastStore : Obligations.LoadReturnsTheLastStore := by
  intro cfg m earlier later o v hm ho hv hlater
  have hearlier : (m.storeAll cfg earlier).wf := storeAll_wf hm earlier
  obtain ⟨m', hstore⟩ := store_succeeds (m.storeAll cfg earlier) ho hv
  have hnone : ¬ StoredIn cfg later o := fun ⟨v', hmem, _, hv'⟩ => Nat.not_le.2 hv' (hlater v' hmem)
  rw [storeAll_append, storeAll_cons_ok hstore, load_storeAll_of_not_storedIn (store_wf hearlier hstore) hnone,
    load_store hearlier hstore, if_pos rfl]

/-- Settles O60: a store grows the length to one past its offset, which is below MEM_CAP. -/
theorem memLenFitsItsRegister : Obligations.MemLenFitsItsRegister := by
  refine ⟨fun _ _ _ _ _ => store_fits, fun cfg ops => ?_, fun cfg m hcfg hm => ?_⟩
  · exact storeAll_keeps (P := Memory.Fits cfg) (fun _ _ _ _ _ => store_fits) (Nat.zero_le _)
  · have hcap : cfg.memCap ≤ 2 ^ cfg.memAddrW := hcfg.2.2
    have hlt : m.size < 2 ^ (cfg.memAddrW + 1) :=
      calc m.size ≤ 2 ^ cfg.memAddrW := hm.trans hcap
        _ < 2 ^ (cfg.memAddrW + 1) := Nat.pow_lt_pow_succ one_lt_two
    refine ⟨hlt, ?_⟩
    rw [Memory.lenReg, BitVec.toNat_ofNat]
    exact Nat.mod_eq_of_lt hlt

/-- Settles O56: the range is listed offset by offset. -/
theorem rangeLoadIsLoads : Obligations.RangeLoadIsLoads := by
  refine fun cfg m o n => ⟨fun hn => ⟨_, if_neg (Nat.not_lt.2 hn), by simp, fun i hi => ?_⟩, fun hn => if_pos hn⟩
  simp [hi]

/-! ## The read-out -/

/-- A cell is listed exactly if its word is not zero and its offset reads it. -/
theorem mem_cells_iff {cells : List Cell} (hsorted : cells.Pairwise fun c d => c.1 < d.1) (hne : ∀ c ∈ cells, c.2 ≠ 0) (c : Cell) :
    c ∈ cells ↔ c.2 ≠ 0 ∧ readCells cells c.1 = c.2 := by
  induction cells with
  | nil => exact iff_of_false List.not_mem_nil fun h => h.1 h.2.symm
  | cons d rest ih =>
    obtain ⟨hd, hrest⟩ := List.pairwise_cons.1 hsorted
    have ih := ih hrest fun e he => hne e (.tail d he)
    rw [List.mem_cons, readCells]
    by_cases hoffset : d.1 = c.1
    · have hnot : c ∉ rest := fun hc => (hd c hc).ne hoffset
      have hd0 := hne d (.head rest)
      simp only [hnot, or_false, if_pos hoffset]
      constructor
      · rintro rfl
        exact ⟨hd0, rfl⟩
      · exact fun h => Prod.ext hoffset.symm h.2.symm
    · have hcd : c ≠ d := fun h => hoffset (congrArg Prod.fst h.symm)
      rw [if_neg hoffset, ← ih]
      simp [hcd]

/-- In canonical form the loads tell the cells. -/
theorem cells_eq_of_load_eq {m m' : Memory} (hm : m.wf) (hm' : m'.wf) (h : ∀ o, m.load o = m'.load o) : m.cells = m'.cells := by
  have hread : ∀ o, readCells m.cells o = readCells m'.cells o := fun o => by
    rw [← load_eq_readCells hm, ← load_eq_readCells hm', h]
  have hirrefl : Std.Irrefl fun c d : Cell => c.1 < d.1 := ⟨fun _ => lt_irrefl _⟩
  have hantisymm : Std.Antisymm fun c d : Cell => c.1 < d.1 := ⟨fun _ _ hcd hdc => absurd hdc hcd.asymm⟩
  refine hm.1.eq_of_mem_iff hm'.1 fun c => ?_
  rw [mem_cells_iff hm.1 (fun d hd => (hm.2 d hd).1), mem_cells_iff hm'.1 (fun d hd => (hm'.2 d hd).1), hread]

/-- The length and the cells below it tell a memory in canonical form: beyond them every load is zero. -/
theorem memory_eq_of_readOut {m m' : Memory} (hm : m.wf) (hm' : m'.wf) (hsize : m.size = m'.size)
    (hloads : (List.range m.size).map m.load = (List.range m'.size).map m'.load) : m = m' := by
  have hload : ∀ o, m.load o = m'.load o := by
    intro o
    by_cases ho : o < m.size
    · rw [← hsize] at hloads
      exact List.map_inj_left.1 hloads o (List.mem_range.2 ho)
    · rw [load_of_size_le (Nat.not_lt.1 ho), load_of_size_le (hsize ▸ Nat.not_lt.1 ho)]
  have hcells := cells_eq_of_load_eq hm hm' hload
  cases m
  cases m'
  exact congrArg₂ Memory.mk hcells hsize

/-- Settles O57: the codes tell status and fault, the listed loads the memory, and the rest is read out as it is. -/
theorem readOutDeterminesTheState : Obligations.ReadOutDeterminesTheState := by
  intro s t hs ht h
  obtain ⟨hprog, hpc, hstatus, -, hfault, hstack, hsize, hloads⟩ := ReadOut.mk.inj h
  have hmem : s.mem = t.mem := memory_eq_of_readOut hs ht hsize hloads
  have hstatus' : s.status = t.status := statusOfCode_code.injective hstatus
  have hfault' : s.fault = t.fault := (faultCode_eq_iff s t).1 hfault
  cases s
  cases t
  rw [State.mk.injEq]
  exact ⟨hprog, hpc, hstatus', hfault', hstack, hmem⟩

end Sys2Proof.Machine

/-! PROOFS. The assembler of 30_encoding.md section 4 (R90, D20): an operand's digits, the words of a line, the lines of a text. -/

namespace Sys2Proof.Machine

/-! ## Operands -/

/-- A character that neither parts words or lines nor begins a comment. -/
def isPlain (c : Char) : Bool := !isBlank c && c != ';' && c != '\n'

theorem isPlain_iff {c : Char} : isPlain c = true ↔ isBlank c = false ∧ c ≠ ';' ∧ c ≠ '\n' := by simp [isPlain, and_assoc]

theorem isPlain_hexDigit {d : Nat} (h : d < 16) : isPlain (hexDigit d) = true := by
  revert d
  decide

theorem hexDigit_ne_x {d : Nat} (h : d < 16) : hexDigit d ≠ 'x' := by
  revert d
  decide

theorem digitValue_hexDigit {base d : Nat} (hbase : base = 10 ∨ base = 16) (h : d < base) : digitValue base (hexDigit d) = some d := by
  obtain rfl | rfl := hbase
  · revert d
    decide
  · revert d
    decide

@[simp] theorem digitsValue_nil (base acc : Nat) : digitsValue base acc [] = some acc := rfl

theorem digitsValue_hexDigit_cons {base d : Nat} (hbase : base = 10 ∨ base = 16) (h : d < base) (acc : Nat) (cs : List Char) :
    digitsValue base acc (hexDigit d :: cs) = digitsValue base (acc * base + d) cs := by
  rw [digitsValue, digitValue_hexDigit hbase h]

/-- Without an `x` in the second place a number is read in decimal. -/
theorem numberValue_of_no_x {c : Char} {cs : List Char} (h : ∀ x ∈ cs, x ≠ 'x') : numberValue (c :: cs) = digitsValue 10 0 (c :: cs) := by
  unfold numberValue
  split
  · next heq => cases heq
  · next heq => cases heq; exact absurd rfl (h 'x' (.head _))
  · next heq => cases heq; rfl

theorem numberValue_hex (c : Char) (cs : List Char) : numberValue ('0' :: 'x' :: c :: cs) = digitsValue 16 0 (c :: cs) := rfl

theorem digitsValue_two_hex {n : Nat} (h : n < 256) : digitsValue 16 0 [hexDigit (n / 16), hexDigit (n % 16)] = some n := by
  rw [digitsValue_hexDigit_cons (.inr rfl) (by omega), digitsValue_hexDigit_cons (.inr rfl) (by omega), digitsValue_nil]
  exact congrArg some (by omega)

/-- An operand as written is read back, in each of its radixes. -/
theorem numberValue_operandText {n : Nat} (h : n < 256) (r : Radix) : numberValue (operandText n r) = some n := by
  have hx : ∀ d, d < 10 → hexDigit d ≠ 'x' := fun d hd => hexDigit_ne_x (by omega)
  cases r with
  | decimal =>
    rw [operandText]
    split_ifs with h1 h2
    · rw [numberValue_of_no_x (by simp), digitsValue_hexDigit_cons (.inl rfl) h1, digitsValue_nil]
      exact congrArg some (by omega)
    · rw [numberValue_of_no_x (by simpa using hx _ (by omega)), digitsValue_hexDigit_cons (.inl rfl) (by omega),
        digitsValue_hexDigit_cons (.inl rfl) (by omega), digitsValue_nil]
      exact congrArg some (by omega)
    · rw [numberValue_of_no_x (by simpa using ⟨hx _ (by omega), hx _ (by omega)⟩), digitsValue_hexDigit_cons (.inl rfl) (by omega),
        digitsValue_hexDigit_cons (.inl rfl) (by omega), digitsValue_hexDigit_cons (.inl rfl) (by omega), digitsValue_nil]
      exact congrArg some (by omega)
  | hex => rw [operandText, numberValue_hex, digitsValue_two_hex h]
  | hexShort =>
    rw [operandText]
    split_ifs with h1
    · rw [numberValue_hex, digitsValue_hexDigit_cons (.inr rfl) h1, digitsValue_nil]
      exact congrArg some (by omega)
    · rw [numberValue_hex, digitsValue_two_hex h]

theorem operandText_isPlain {n : Nat} (h : n < 256) (r : Radix) : (operandText n r).all isPlain = true := by
  have h0 : isPlain '0' = true := rfl
  have hx : isPlain 'x' = true := rfl
  cases r with
  | decimal =>
    rw [operandText]
    split_ifs with h1 h2 <;> simp (disch := omega) [isPlain_hexDigit]
  | hex =>
    rw [operandText]
    simp (disch := omega) [isPlain_hexDigit, h0, hx]
  | hexShort =>
    rw [operandText]
    split_ifs with h1 <;> simp (disch := omega) [isPlain_hexDigit, h0, hx]

theorem operandText_ne_nil {n : Nat} (h : n < 256) (r : Radix) : operandText n r ≠ [] := by
  intro hnil
  have hread := numberValue_operandText h r
  rw [hnil] at hread
  cases hread

theorem operandByte_operandText (imm : Byte) (r : Radix) : operandByte (operandText imm.toNat r) = .ok imm := by
  have hfits : operandFits (some imm.toNat) = true := decide_eq_true imm.isLt
  rw [operandByte, numberValue_operandText imm.isLt]
  simp [hfits]

theorem operandByte_of_large {x : List Char} {n : Nat} (h : numberValue x = some n) (hn : 255 < n) :
    operandByte x = .error .operandRange := by
  have hfits : operandFits (some n) = false := decide_eq_false (by omega)
  rw [operandByte, h]
  simp [hfits]

/-! ## The words of a line -/

/-- A word is read character by character. -/
theorem wordsFrom_append {w : List Char} (hw : w.all isPlain = true) (acc rest : List Char) :
    wordsFrom acc (w ++ rest) = wordsFrom (w.reverse ++ acc) rest := by
  induction w generalizing acc with
  | nil => rfl
  | cons c w ih =>
    rw [List.all_cons, Bool.and_eq_true, isPlain_iff] at hw
    obtain ⟨⟨hc, -⟩, hrest⟩ := hw
    rw [List.cons_append, wordsFrom, hc]
    simp [ih hrest]

/-- The last word of a line, with or without a blank after it. -/
theorem wordsFrom_last {w trail : List Char} (hw : w.all isPlain = true) (hne : w ≠ []) (htrail : trail = [] ∨ trail = [' ']) :
    wordsFrom [] (w ++ trail) = [w] := by
  rw [wordsFrom_append hw]
  obtain rfl | rfl := htrail <;> simp [wordsFrom, isBlank, hne]

/-- A word that a blank ends. -/
theorem wordsFrom_blank {w : List Char} (hw : w.all isPlain = true) (hne : w ≠ []) (rest : List Char) :
    wordsFrom [] (w ++ ' ' :: rest) = w :: wordsFrom [] rest := by
  rw [wordsFrom_append hw]
  simp [wordsFrom, isBlank, hne]

/-- The words that an instruction is written with. -/
def instrWords (r : Radix) : Instr → List (List Char)
  | .push1 imm => [['P', 'U', 'S', 'H', '1'], operandText imm.toNat r]
  | i => [lineOf r i]

theorem wordsFrom_lineOf (r : Radix) (i : Instr) {trail : List Char} (htrail : trail = [] ∨ trail = [' ']) :
    wordsFrom [] (lineOf r i ++ trail) = instrWords r i := by
  cases i with
  | stop => exact wordsFrom_last rfl (List.cons_ne_nil _ _) htrail
  | add => exact wordsFrom_last rfl (List.cons_ne_nil _ _) htrail
  | mul => exact wordsFrom_last rfl (List.cons_ne_nil _ _) htrail
  | push1 imm =>
    calc wordsFrom [] (['P', 'U', 'S', 'H', '1'] ++ ' ' :: (operandText imm.toNat r ++ trail))
        = ['P', 'U', 'S', 'H', '1'] :: wordsFrom [] (operandText imm.toNat r ++ trail) :=
          wordsFrom_blank rfl (List.cons_ne_nil _ _) _
      _ = instrWords r (.push1 imm) := by
          rw [wordsFrom_last (operandText_isPlain imm.isLt r) (operandText_ne_nil imm.isLt r) htrail]
          rfl

theorem readWords_instrWords (r : Radix) (i : Instr) : readWords (instrWords r i) = .ok (some i) := by
  cases i with
  | stop => rfl
  | add => rfl
  | mul => rfl
  | push1 imm => simp [instrWords, readWords, operandByte_operandText]

/-- A line holds no comment mark and no line end of its own. -/
theorem lineOf_chars (r : Radix) (i : Instr) : ∀ c ∈ lineOf r i, c ≠ ';' ∧ c ≠ '\n' := by
  cases i with
  | stop => simp [lineOf]
  | add => simp [lineOf]
  | mul => simp [lineOf]
  | push1 imm =>
    refine List.forall_mem_append.2 ⟨by simp, fun c hc => ?_⟩
    exact (isPlain_iff.1 (List.all_eq_true.1 (operandText_isPlain imm.isLt r) c hc)).2

/-! ## Source lines -/

/-- The part of a source line before its comment. -/
def SourceLine.code (l : SourceLine) : List Char :=
  match l.instr with
  | some i => lineOf l.radix i
  | none => []

/-- The comment of a source line, with the blank and the mark before it. -/
def SourceLine.remark (l : SourceLine) : List Char :=
  match l.comment with
  | some c => ' ' :: ';' :: c
  | none => []

theorem SourceLine.text_eq (l : SourceLine) : l.text = l.code ++ l.remark ++ ['\n'] := rfl

theorem SourceLine.code_chars (l : SourceLine) : ∀ c ∈ l.code, c ≠ ';' ∧ c ≠ '\n' := by
  rw [SourceLine.code]
  cases l.instr with
  | none => simp
  | some i => exact lineOf_chars l.radix i

/-- Without its comment a source line is its code, and a blank if there was one. -/
theorem SourceLine.takeWhile_code (l : SourceLine) :
    ∃ trail, (trail = [] ∨ trail = [' ']) ∧ (l.code ++ l.remark).takeWhile (· ≠ ';') = l.code ++ trail := by
  rw [List.takeWhile_append_of_pos fun c hc => by simpa using (l.code_chars c hc).1, SourceLine.remark]
  cases l.comment with
  | none => exact ⟨[], .inl rfl, rfl⟩
  | some c => exact ⟨[' '], .inr rfl, rfl⟩

theorem readLine_source (l : SourceLine) : readLine (l.code ++ l.remark) = .ok l.instr := by
  obtain ⟨trail, htrail, htake⟩ := l.takeWhile_code
  rw [readLine, htake, SourceLine.code]
  cases l.instr with
  | none => obtain rfl | rfl := htrail <;> rfl
  | some i => exact (congrArg readWords (wordsFrom_lineOf l.radix i htrail)).trans (readWords_instrWords l.radix i)

/-! ## The lines of a text -/

/-- A line is read up to its end. -/
theorem linesFrom_append {line : List Char} (hline : '\n' ∉ line) (acc rest : List Char) :
    linesFrom acc (line ++ '\n' :: rest) = (acc.reverse ++ line) :: linesFrom [] rest := by
  induction line generalizing acc with
  | nil => simp [linesFrom]
  | cons c line ih =>
    rw [List.mem_cons, not_or] at hline
    rw [List.cons_append, linesFrom, if_neg (Ne.symm hline.1), ih hline.2]
    simp

theorem SourceLine.newline_not_mem {l : SourceLine} (h : ∀ c, l.comment = some c → '\n' ∉ c) : '\n' ∉ l.code ++ l.remark := by
  rw [List.mem_append, not_or]
  refine ⟨fun hmem => (l.code_chars _ hmem).2 rfl, ?_⟩
  rw [SourceLine.remark]
  cases hc : l.comment with
  | none => simp
  | some c => simpa using h c hc

/-- The lines of a text are its source lines, and the empty one after the last line end. -/
theorem linesFrom_text {lines : List SourceLine} (h : ∀ l ∈ lines, ∀ c, l.comment = some c → '\n' ∉ c) :
    linesFrom [] (lines.map SourceLine.text).flatten = lines.map (fun l => l.code ++ l.remark) ++ [[]] := by
  induction lines with
  | nil => rfl
  | cons l lines ih =>
    have hl : '\n' ∉ l.code ++ l.remark := SourceLine.newline_not_mem (h l (.head lines))
    rw [List.map_cons, List.flatten_cons, SourceLine.text_eq, List.append_assoc, List.singleton_append, linesFrom_append hl,
      ih fun l' hl' => h l' (.tail l hl')]
    rfl

theorem readLines_source (lines : List SourceLine) :
    readLines (lines.map (fun l => l.code ++ l.remark) ++ [[]]) = .ok (lines.filterMap SourceLine.instr) := by
  induction lines with
  | nil => rfl
  | cons l lines ih =>
    rw [List.map_cons, List.cons_append, readLines, readLine_source, ih, List.filterMap_cons]
    cases l.instr <;> rfl

/-- Settles O58: the text falls into its source lines, and each of these into its instruction's words. -/
theorem assemblerGivesTheEncoding : Obligations.AssemblerGivesTheEncoding := by
  refine ⟨fun cfg lines hlines => ?_, fun x n => operandByte_of_large⟩
  rw [assemble, linesFrom_text hlines, readLines_source]

end Sys2Proof.Machine
